-- ==== Sys2Proof/Word.lean ====
section
/-! DEFINITION. The value types of the hardware: 8-bit bytes, 16-bit words, 12-bit addresses, 4-bit fields
(spec/00_scope.md R5, R9). All values are unsigned. -/

namespace Sys2Proof

/-- An 8-bit value: a general register, a timer, a byte of memory (R5 `XLEN`, `TIMER_WIDTH`). -/
abbrev Byte := BitVec 8

/-- A 16-bit value: the pc, `I`, a stack entry, an instruction word (R5). -/
abbrev Word := BitVec 16

/-- The 12-bit address immediate `nnn` of an instruction (R71). -/
abbrev Addr := BitVec 12

/-- A 4-bit field of an instruction word: a primary opcode or a sprite height (R71). -/
abbrev Nibble := BitVec 4

/-- A general register number, 0 to 15. All 16 are legal wherever a register is named (R20, R73). -/
abbrev Reg := Fin 16

/-- A key number, 0 to 15 (R26). -/
abbrev Key := Fin 16

end Sys2Proof
end

