-- ==== Sys2Proof/Syntax.lean ====
section
/-! DEFINITION. The 34 instructions, one constructor per row of spec/opcode_table.json, in the table's order
(spec/30_encoding.md R81). Operands are the fields of R71, unsigned and unscaled (R73). -/

namespace Sys2Proof

/-- The instruction set: exactly the 34 instructions of R2 and R81. -/
inductive Instr where
  /-- `00E0` CLS: clear the display (R140). -/
  | cls
  /-- `00EE` RET: return from subroutine (R100). -/
  | ret
  /-- `1nnn` JP nnn (R101). -/
  | jp (nnn : Addr)
  /-- `2nnn` CALL nnn (R102). -/
  | call (nnn : Addr)
  /-- `3xnn` SE Vx, nn: skip if equal to immediate (R103). -/
  | seImm (x : Reg) (nn : Byte)
  /-- `4xnn` SNE Vx, nn: skip if not equal to immediate (R104). -/
  | sneImm (x : Reg) (nn : Byte)
  /-- `5xy0` SE Vx, Vy: skip if registers equal (R105). -/
  | seReg (x y : Reg)
  /-- `6xnn` LD Vx, nn (R110). -/
  | ldImm (x : Reg) (nn : Byte)
  /-- `7xnn` ADD Vx, nn: no flag (R111). -/
  | addImm (x : Reg) (nn : Byte)
  /-- `8xy0` LD Vx, Vy (R112). -/
  | ldReg (x y : Reg)
  /-- `8xy1` OR Vx, Vy (R113). -/
  | orReg (x y : Reg)
  /-- `8xy2` AND Vx, Vy (R114). -/
  | andReg (x y : Reg)
  /-- `8xy3` XOR Vx, Vy (R115). -/
  | xorReg (x y : Reg)
  /-- `8xy4` ADD Vx, Vy: with carry flag (R116). -/
  | addReg (x y : Reg)
  /-- `8xy5` SUB Vx, Vy: `V[x] - V[y]` (R117). -/
  | subReg (x y : Reg)
  /-- `8xy6` SHR Vx, Vy: shift right by one (R118). -/
  | shrReg (x y : Reg)
  /-- `8xy7` SUBN Vx, Vy: `V[y] - V[x]` (R119). -/
  | subnReg (x y : Reg)
  /-- `8xyE` SHL Vx, Vy: shift left by one (R120). -/
  | shlReg (x y : Reg)
  /-- `9xy0` SNE Vx, Vy: skip if registers differ (R106). -/
  | sneReg (x y : Reg)
  /-- `Annn` LD I, nnn (R130). -/
  | ldI (nnn : Addr)
  /-- `Bnnn` JP V0, nnn: jump with offset (R107). -/
  | jpV0 (nnn : Addr)
  /-- `Cxnn` RND Vx, nn: masked random byte (R121). -/
  | rnd (x : Reg) (nn : Byte)
  /-- `Dxyn` DRW Vx, Vy, n: draw sprite (R141). -/
  | drw (x y : Reg) (n : Nibble)
  /-- `Ex9E` SKP Vx: skip if key pressed (R153). -/
  | skp (x : Reg)
  /-- `ExA1` SKNP Vx: skip if key not pressed (R154). -/
  | sknp (x : Reg)
  /-- `Fx07` LD Vx, DT: read the delay timer (R150). -/
  | ldVxDT (x : Reg)
  /-- `Fx0A` LD Vx, K: wait for a key (R155). -/
  | ldVxK (x : Reg)
  /-- `Fx15` LD DT, Vx: set the delay timer (R151). -/
  | ldDTVx (x : Reg)
  /-- `Fx18` LD ST, Vx: set the sound timer (R152). -/
  | ldSTVx (x : Reg)
  /-- `Fx1E` ADD I, Vx (R131). -/
  | addIVx (x : Reg)
  /-- `Fx29` LD F, Vx: point `I` at a font glyph (R132). -/
  | ldFVx (x : Reg)
  /-- `Fx33` LD B, Vx: store binary-coded decimal (R133). -/
  | ldBVx (x : Reg)
  /-- `Fx55` LD [I], Vx: store `V[0]` to `V[x]` (R134). -/
  | storeRegs (x : Reg)
  /-- `Fx65` LD Vx, [I]: load `V[0]` to `V[x]` (R135). -/
  | loadRegs (x : Reg)
deriving DecidableEq, Repr

end Sys2Proof
end

