-- ==== Sys2Proof/Decode.lean ====
section
/-! DEFINITION. The decoder of spec/30_encoding.md R74, total on every list of bytes, and after it the encoder from the
formats of R72 and the rows of R81. -/

namespace Sys2Proof

/-- Why the decoder gives no instruction. -/
inductive Reject where
  /-- Fewer than two bytes were given: an instruction is exactly 2 bytes (R70). No fetch of the machine gives it so few. -/
  | truncated
  /-- The spec's `Unknown`: the word is none of the 34 instructions (R74, R76). What the machine does with it is R77. -/
  | unknown (w : Word)
deriving DecidableEq, Repr

/-! ## The fields of a word (R71) -/

/-- `op = w[15:12]`. -/
def opField (w : Word) : Nibble := w.extractLsb' 12 4

/-- `x = w[11:8]`, a register number. -/
def xField (w : Word) : Reg := (w.extractLsb' 8 4).toFin

/-- `y = w[7:4]`, a register number. -/
def yField (w : Word) : Reg := (w.extractLsb' 4 4).toFin

/-- `n = w[3:0]`. -/
def nField (w : Word) : Nibble := w.extractLsb' 0 4

/-- `nn = w[7:0]`. -/
def nnField (w : Word) : Byte := w.extractLsb' 0 8

/-- `nnn = w[11:0]`. -/
def nnnField (w : Word) : Addr := w.extractLsb' 0 12

/-! ## Decoding (R74): the top nibble selects a group; groups 0, 8, E and F look at a secondary field; every fixed digit of
a pattern is checked (R75). -/

/-- Group 0x0: only the two whole words `00E0` and `00EE`. -/
def decodeGroup0 (w : Word) : Except Reject Instr :=
  if w = 0x00E0#16 then .ok .cls
  else if w = 0x00EE#16 then .ok .ret
  else .error (.unknown w)

/-- Group 0x8: the low nibble selects. -/
def decodeGroup8 (w : Word) : Except Reject Instr :=
  match (nField w).toNat with
  | 0x0 => .ok (.ldReg (xField w) (yField w))
  | 0x1 => .ok (.orReg (xField w) (yField w))
  | 0x2 => .ok (.andReg (xField w) (yField w))
  | 0x3 => .ok (.xorReg (xField w) (yField w))
  | 0x4 => .ok (.addReg (xField w) (yField w))
  | 0x5 => .ok (.subReg (xField w) (yField w))
  | 0x6 => .ok (.shrReg (xField w) (yField w))
  | 0x7 => .ok (.subnReg (xField w) (yField w))
  | 0xE => .ok (.shlReg (xField w) (yField w))
  | _ => .error (.unknown w)

/-- Group 0xE: the low byte selects. -/
def decodeGroupE (w : Word) : Except Reject Instr :=
  match (nnField w).toNat with
  | 0x9E => .ok (.skp (xField w))
  | 0xA1 => .ok (.sknp (xField w))
  | _ => .error (.unknown w)

/-- Group 0xF: the low byte selects. -/
def decodeGroupF (w : Word) : Except Reject Instr :=
  match (nnField w).toNat with
  | 0x07 => .ok (.ldVxDT (xField w))
  | 0x0A => .ok (.ldVxK (xField w))
  | 0x15 => .ok (.ldDTVx (xField w))
  | 0x18 => .ok (.ldSTVx (xField w))
  | 0x1E => .ok (.addIVx (xField w))
  | 0x29 => .ok (.ldFVx (xField w))
  | 0x33 => .ok (.ldBVx (xField w))
  | 0x55 => .ok (.storeRegs (xField w))
  | 0x65 => .ok (.loadRegs (xField w))
  | _ => .error (.unknown w)

/-- `decode(w)` of R74. The last arm is never reached: a nibble has no other value left. -/
def decodeWord (w : Word) : Except Reject Instr :=
  match (opField w).toNat with
  | 0x0 => decodeGroup0 w
  | 0x1 => .ok (.jp (nnnField w))
  | 0x2 => .ok (.call (nnnField w))
  | 0x3 => .ok (.seImm (xField w) (nnField w))
  | 0x4 => .ok (.sneImm (xField w) (nnField w))
  | 0x5 => if nField w = 0#4 then .ok (.seReg (xField w) (yField w)) else .error (.unknown w)
  | 0x6 => .ok (.ldImm (xField w) (nnField w))
  | 0x7 => .ok (.addImm (xField w) (nnField w))
  | 0x8 => decodeGroup8 w
  | 0x9 => if nField w = 0#4 then .ok (.sneReg (xField w) (yField w)) else .error (.unknown w)
  | 0xA => .ok (.ldI (nnnField w))
  | 0xB => .ok (.jpV0 (nnnField w))
  | 0xC => .ok (.rnd (xField w) (nnField w))
  | 0xD => .ok (.drw (xField w) (yField w) (nField w))
  | 0xE => decodeGroupE w
  | 0xF => decodeGroupF w
  | _ => .error (.unknown w)

/-- The word two bytes of memory make, the first the more significant: `(high_byte << 8) | low_byte` (R52, R70). -/
def wordOfBytes (hi lo : Byte) : Word := hi ++ lo

/-- The decoder on bytes: it takes one instruction and gives back the bytes after it. -/
def decode : List Byte → Except Reject (Instr × List Byte)
  | hi :: lo :: rest =>
    match decodeWord (wordOfBytes hi lo) with
    | .ok i => .ok (i, rest)
    | .error e => .error e
  | _ => .error .truncated

/-! ## Encoding (R72, R81) -/

/-- A register number as its 4-bit field. -/
def regBits (r : Reg) : Nibble := BitVec.ofFin r

/-- Format A: `op`, `nnn`. -/
def formatA (op : Nibble) (nnn : Addr) : Word := op ++ nnn

/-- Format XI: `op`, `x`, `nn`. Format X is the same with `nn` the fixed secondary opcode. -/
def formatXI (op : Nibble) (x : Reg) (nn : Byte) : Word := op ++ (regBits x ++ nn)

/-- Format XYN: `op`, `x`, `y`, `n`. Format XY is the same with `n` the fixed secondary opcode. -/
def formatXYN (op : Nibble) (x y : Reg) (n : Nibble) : Word := op ++ (regBits x ++ (regBits y ++ n))

/-- The word of an instruction, from its row of R81. -/
def encode : Instr → Word
  | .cls => 0x00E0#16
  | .ret => 0x00EE#16
  | .jp nnn => formatA 0x1 nnn
  | .call nnn => formatA 0x2 nnn
  | .seImm x nn => formatXI 0x3 x nn
  | .sneImm x nn => formatXI 0x4 x nn
  | .seReg x y => formatXYN 0x5 x y 0x0
  | .ldImm x nn => formatXI 0x6 x nn
  | .addImm x nn => formatXI 0x7 x nn
  | .ldReg x y => formatXYN 0x8 x y 0x0
  | .orReg x y => formatXYN 0x8 x y 0x1
  | .andReg x y => formatXYN 0x8 x y 0x2
  | .xorReg x y => formatXYN 0x8 x y 0x3
  | .addReg x y => formatXYN 0x8 x y 0x4
  | .subReg x y => formatXYN 0x8 x y 0x5
  | .shrReg x y => formatXYN 0x8 x y 0x6
  | .subnReg x y => formatXYN 0x8 x y 0x7
  | .shlReg x y => formatXYN 0x8 x y 0xE
  | .sneReg x y => formatXYN 0x9 x y 0x0
  | .ldI nnn => formatA 0xA nnn
  | .jpV0 nnn => formatA 0xB nnn
  | .rnd x nn => formatXI 0xC x nn
  | .drw x y n => formatXYN 0xD x y n
  | .skp x => formatXI 0xE x 0x9E
  | .sknp x => formatXI 0xE x 0xA1
  | .ldVxDT x => formatXI 0xF x 0x07
  | .ldVxK x => formatXI 0xF x 0x0A
  | .ldDTVx x => formatXI 0xF x 0x15
  | .ldSTVx x => formatXI 0xF x 0x18
  | .addIVx x => formatXI 0xF x 0x1E
  | .ldFVx x => formatXI 0xF x 0x29
  | .ldBVx x => formatXI 0xF x 0x33
  | .storeRegs x => formatXI 0xF x 0x55
  | .loadRegs x => formatXI 0xF x 0x65

/-- The two bytes of a word as they lie in memory, most significant first (R52). -/
def bytesOfWord (w : Word) : List Byte := [w.extractLsb' 8 8, w.extractLsb' 0 8]

/-- The bytes of an instruction as they lie in memory. -/
def encodeBytes (i : Instr) : List Byte := bytesOfWord (encode i)

/-! ## The opcode table's numbering -/

/-- The instruction word that spec/opcode_table.json numbers as `w`: one 16-bit word, bit 0 its least significant bit, the
bits above `nbits` zero. -/
def tableWord (nbits w : Nat) : Word := BitVec.ofNat 16 (w % 2 ^ nbits)

/-- What the decoder reads from the bytes of the instruction whose bits are `w`. -/
def decodeTableWord (nbits w : Nat) : Option Instr :=
  match decode (bytesOfWord (tableWord nbits w)) with
  | .ok (i, _) => some i
  | .error _ => none

end Sys2Proof
end

