-- ==== Sys2Proof/Config.lean ====
section
/-! DEFINITION. What is fixed for a run (spec/00_scope.md R6) and the one value the spec leaves free (R7). -/

namespace Sys2Proof

/-- Which register `8xy6` and `8xyE` shift: the parameter `SHIFT_SOURCE` (R6, R118, R120). -/
inductive ShiftSource where
  | vx
  | vy
deriving DecidableEq, Repr

/-- A font: 80 bytes, 5 per hexadecimal glyph (R5 `FONT_BYTES`, R31). -/
abbrev FontTable := Vector Byte 80

/-- The configurable parameters of R6, static inputs of the core (R38), fixed for the life of a run.
They stand in `State.cfg` because `step` has no other argument (log entry 1). -/
structure Config where
  /-- `STRICT_DECODE`: an unknown opcode is a fault (true) or a no-op (false) (R77). -/
  strictDecode : Bool
  /-- `SHIFT_SOURCE` (R118, R120). -/
  shiftSource : ShiftSource
  /-- `FONT_TABLE`: the bytes a reset installs at 0x050 to 0x09F (R31, R180). -/
  fontTable : FontTable
deriving DecidableEq, Repr

/-- The default `FONT_TABLE`, the table of R31. PRESUMED (log entry 4), unsafe: only the row of digit A is the source's;
the spec marks the other 75 bytes as general knowledge (93_implementation_defined.md GK1). -/
def defaultFont : FontTable := #v[
  0xF0#8, 0x90#8, 0x90#8, 0x90#8, 0xF0#8,   -- 0
  0x20#8, 0x60#8, 0x20#8, 0x20#8, 0x70#8,   -- 1
  0xF0#8, 0x10#8, 0xF0#8, 0x80#8, 0xF0#8,   -- 2
  0xF0#8, 0x10#8, 0xF0#8, 0x10#8, 0xF0#8,   -- 3
  0x90#8, 0x90#8, 0xF0#8, 0x10#8, 0x10#8,   -- 4
  0xF0#8, 0x80#8, 0xF0#8, 0x10#8, 0xF0#8,   -- 5
  0xF0#8, 0x80#8, 0xF0#8, 0x90#8, 0xF0#8,   -- 6
  0xF0#8, 0x10#8, 0x20#8, 0x40#8, 0x40#8,   -- 7
  0xF0#8, 0x90#8, 0xF0#8, 0x90#8, 0xF0#8,   -- 8
  0xF0#8, 0x90#8, 0xF0#8, 0x10#8, 0xF0#8,   -- 9
  0xF0#8, 0x90#8, 0xF0#8, 0x90#8, 0x90#8,   -- A
  0xE0#8, 0x90#8, 0xE0#8, 0x90#8, 0xE0#8,   -- B
  0xF0#8, 0x80#8, 0x80#8, 0x80#8, 0xF0#8,   -- C
  0xE0#8, 0x90#8, 0x90#8, 0x90#8, 0xE0#8,   -- D
  0xF0#8, 0x80#8, 0xF0#8, 0x80#8, 0xF0#8,   -- E
  0xF0#8, 0x80#8, 0xF0#8, 0x80#8, 0x80#8]   -- F

/-- The default configuration of R6: strict decoding, shifts of `V[x]`, the table of R31. -/
def Config.default : Config :=
  { strictDecode := true, shiftSource := .vx, fontTable := defaultFont }

/-- The random byte `rand8` of the k-th draw (R7, R121: a free draw under no law). A free value: it has no body, so
nothing can be proved of any draw. DESIGN CHOICE (log entry 2): the draws of a run are numbered by `State.draws`. -/
opaque Config.rand8 : Nat → Byte

end Sys2Proof
end

