-- ==== Sys2Proof/Machine/State.lean ====
section
/-! DEFINITION. The machine state of spec/10_state.md as plain data, its value after reset (R36), and the reasons a step
can stop. -/

namespace Sys2Proof.Machine

/-- The four faults of R161, the causes a fault record can hold. Each is TAKEN as R169 says: the step that raises it answers
a NEXT state whose fault record is written and which is halted (R97, R98). No step answers `Outcome.fault`, so none of these
is ever the reason of one (log entry 3). -/
inductive Fault where
  /-- Cause 1. Raised by the fetch phase of any step whose pc is 4095 or more (R162). Safe: the spec's own halt. -/
  | outOfBoundsFetch
  /-- Cause 2. Raised by the decode phase when `STRICT_DECODE = true` and the word is `Unknown` (R163). Safe: the spec's
  own halt. -/
  | unknownOpcode
  /-- Cause 3. Raised by `2nnn` when `sp = 16` (R164). Safe: the spec's own halt. -/
  | stackOverflow
  /-- Cause 4. Raised by `00EE` when `sp = 0` (R165). Safe: the spec's own halt. -/
  | stackUnderflow
deriving DecidableEq, Repr

/-- Why a step can have no meaning. -/
inductive Refusal where
  /-- Raised by an arm of `exec` whose instruction has no meaning yet, under its mnemonic; no arm of this model is left so.
  Safe: the model stops where the hardware goes on. -/
  | notModelled (mnemonic : String)
deriving DecidableEq, Repr

/-- The load operation's failure result (R166, R182). It is no fault of a step. -/
inductive LoadError where
  /-- The program is longer than 3584 bytes; the state is as before the attempt. -/
  | programTooLarge
deriving DecidableEq, Repr

/-- The fault record of R30. `cause = none` is code 0, the core running; the codes of the causes are `faultCode`. -/
structure FaultRecord where
  cause : Option Fault
  opcode : Word
  addr : Word
deriving DecidableEq, Repr

/-- Memory (R31): (address, byte) pairs in one canonical form (`Memory.wf`). An unlisted address reads as `resetByte`. -/
abbrev Memory := List Host.Cell

/-- The display (R27): 32 rows from top to bottom, of 64 pixels each; `true` is lit. -/
abbrev Display := Vector (Vector Bool 64) 32

/-- Everything the spec gives the machine (R33 lists it whole), its static inputs (R38) and the model's draw counter. -/
structure State where
  /-- The general registers `V[0]` to `V[15]`; `V[15]` is the flag `VF` (R20, R21). -/
  V : Vector Byte 16
  /-- The index register (R22). -/
  I : Word
  /-- The program counter: between steps the address of the next instruction, in execute that of the instruction after the
  one that runs (R23, R11). -/
  pc : Word
  /-- The number of call stack entries in use, 0 to 16 (R24). -/
  sp : Fin 17
  /-- The call stack; entries at `sp` and above keep what they last held (R24). -/
  stack : Vector Word 16
  /-- `delay_timer` (R25). -/
  DT : Byte
  /-- `sound_timer` (R25). -/
  ST : Byte
  /-- The keypad, written by the host only; `true` is pressed (R26). -/
  key : Vector Bool 16
  /-- The display (R27). -/
  px : Display
  /-- `current_opcode`: the word most recently fetched, for diagnosis only (R28). -/
  currentOpcode : Word
  /-- `draw_flag`: whether the most recent completed step changed a pixel (R29). -/
  drawFlag : Bool
  /-- The fault record; the core is halted exactly when it holds a cause (R30). -/
  fault : FaultRecord
  /-- The 4096 bytes of memory (R31). -/
  mem : Memory
  /-- The static configuration (R6, R38); no step changes it (log entry 1). -/
  cfg : Config
  /-- The model's own: how many random bytes have been drawn, which selects the next one (R7, R121; log entry 2). -/
  draws : Nat
deriving DecidableEq, Repr

/-- What a byte of memory that nothing has written reads as: the reset contents of R36, that is the default font at 0x050 to
0x09F and zero elsewhere. -/
def resetByte (a : Nat) : Byte :=
  if h : 0x050 ≤ a ∧ a < 0x0A0 then defaultFont[a - 0x050]'(by omega) else 0x00#8

/-- Addresses strictly rising from `lo`, each below 4096, and no entry equal to what an unlisted address reads as. -/
def Memory.wfFrom (lo : Nat) : Memory → Bool
  | [] => true
  | (a, v) :: m => decide (lo ≤ a) && decide (a < 4096) && decide (v ≠ resetByte a) && Memory.wfFrom (a + 1) m

/-- The canonical form of memory: equal memories are equal data. -/
def Memory.wf (m : Memory) : Bool := Memory.wfFrom 0 m

/-- The machine right after reset with the default configuration, field by field as in the table of R36. Memory lists
nothing: unlisted bytes read as R36's contents. -/
def State.reset : State where
  V := Vector.replicate 16 0x00#8
  I := 0x0000#16
  pc := 0x0200#16
  sp := 0
  stack := Vector.replicate 16 0x0000#16
  DT := 0x00#8
  ST := 0x00#8
  key := Vector.replicate 16 false
  px := Vector.replicate 32 (Vector.replicate 64 false)
  currentOpcode := 0x0000#16
  drawFlag := false
  fault := { cause := none, opcode := 0x0000#16, addr := 0x0000#16 }
  mem := []
  cfg := Config.default
  draws := 0

end Sys2Proof.Machine
end

