-- ==== Sys2Proof/Machine/Ops.lean ====
section
/-! DEFINITION. The named operations over memory, registers, display, stack and keypad, and taking a fault
(spec/00_scope.md R10, spec/20_memory.md R57, spec/60_exceptions.md R160, R169). -/

namespace Sys2Proof.Machine

/-! ## Memory -/

/-- The byte memory holds at an address below 4096. -/
def Memory.read : Memory → Nat → Byte
  | [], a => resetByte a
  | (b, u) :: m, a => if a = b then u else Memory.read m a

/-- The memory with no entry at address `a`, which then reads as after reset. -/
def Memory.remove (m : Memory) (a : Nat) : Memory := m.filter fun e => e.1 != a

/-- An entry put in its place by address. -/
def Memory.insert : Memory → Nat → Byte → Memory
  | [], a, v => [(a, v)]
  | (b, u) :: m, a, v => if a < b then (a, v) :: (b, u) :: m else (b, u) :: Memory.insert m a v

/-- The memory with byte `v` at address `a`. It keeps the canonical form: a byte equal to what an unlisted address reads as
is not listed. -/
def Memory.write (m : Memory) (a : Nat) (v : Byte) : Memory :=
  if v = resetByte a then m.remove a else (m.remove a).insert a v

/-- `MemRead(a, 1)`: the byte at address `a mod 4096` (R57; the wrap is the spec's decision D5). -/
def State.byteAt (s : State) (a : Nat) : Byte := s.mem.read (a % 4096)

/-- `MemWrite(a, 1, v)`: store `v` at address `a mod 4096` (R57). -/
def State.storeByte (s : State) (a : Nat) (v : Byte) : State :=
  { s with mem := s.mem.write (a % 4096) v }

/-! ## General registers -/

/-- Read `V[r]` (R20). -/
def State.reg (s : State) (r : Reg) : Byte := s.V[r.val]

/-- Write `V[r]` (R20). No register is hardwired. -/
def State.setReg (s : State) (r : Reg) (v : Byte) : State := { s with V := s.V.set r.val v }

/-- `VF`, the flag register, is register 15 (R21). -/
def regF : Reg := 15

/-- The register with number `k`, for the loops of `Fx55` and `Fx65`, which stay below 16 (R134, R135). -/
def regNumber (k : Nat) : Reg := Fin.ofNat 16 k

/-! ## Program counter -/

/-- `skip`: `pc <- pc + 2` on top of the step's own advance (R99). -/
def State.skip (s : State) : State := { s with pc := s.pc + 2#16 }

/-- Skip the next instruction if the condition holds (R99, R108). -/
def State.skipIf (s : State) (c : Bool) : State := if c then s.skip else s

/-- `pc <- a`. -/
def State.jump (s : State) (a : Word) : State := { s with pc := a }

/-- `pc0`, the address of the instruction that executes: `pc - 2` at the start of execute (R11). -/
def State.pc0 (s : State) : Word := s.pc - 2#16

/-! ## Taking a fault -/

/-- The core is halted exactly when its fault record holds a cause (R30). -/
def State.halted (s : State) : Bool := s.fault.cause.isSome

/-- `raise F(opcode = w, addr = a)`: write the fault record, and nothing else changes (R160, R169). The core is halted from
then on. There is no return from a fault: only a reset leaves the halt (R170). -/
def State.raise (s : State) (f : Fault) (w a : Word) : State :=
  { s with fault := { cause := some f, opcode := w, addr := a } }

/-- A fault of decode or execute records the word fetched and `pc0` (R161, R97). -/
def State.raiseHere (s : State) (f : Fault) : State := s.raise f s.currentOpcode s.pc0

/-- The numeric cause codes of R161. -/
def faultCode : Option Fault → Nat
  | none => 0
  | some .outOfBoundsFetch => 1
  | some .unknownOpcode => 2
  | some .stackOverflow => 3
  | some .stackUnderflow => 4

/-! ## Call stack -/

/-- Entry `k` of the call stack (R24). -/
def State.stackAt (s : State) (k : Fin 16) : Word := s.stack[k.val]

/-- `stack[sp] <- pc; sp <- sp + 1`, or the fault StackOverflow when `sp == 16` (R24, R102, R164). The sum's `none` is the
full stack. -/
def State.push (s : State) (a : Word) : Option State :=
  if h : s.sp.val < 16 then
    some { s with stack := s.stack.set s.sp.val a, sp := ⟨s.sp.val + 1, by omega⟩ }
  else none

/-- `sp <- sp - 1` and the entry it then points at, which keeps its value (R24, R100); `none` is the empty stack. -/
def State.pop (s : State) : Option (State × Word) :=
  if h : 0 < s.sp.val then
    some ({ s with sp := ⟨s.sp.val - 1, by omega⟩ }, s.stack[s.sp.val - 1]'(by omega))
  else none

/-! ## Keypad -/

/-- Whether key `k` is pressed (R26). -/
def State.keyDown (s : State) (k : Key) : Bool := s.key[k.val]

/-- The least key that is pressed, if one is (R155; the lowest is the spec's decision D7). -/
def State.lowestKey (s : State) : Option Key := (List.finRange 16).find? s.keyDown

/-! ## Display -/

/-- `px[row][col]` (R27). -/
def pixel (d : Display) (row : Fin 32) (col : Fin 64) : Bool := d[row.val][col.val]

/-- `px[row][col] <- px[row][col] XOR 1` (R141). -/
def flipPixel (d : Display) (row : Fin 32) (col : Fin 64) : Display :=
  d.set row.val (d[row.val].set col.val (!pixel d row col))

/-- The display with every pixel unlit (R140). -/
def clearDisplay : Display := Vector.replicate 32 (Vector.replicate 64 false)

/-- A display being drawn on, with the `hit` of R141: whether a lit pixel was drawn on. -/
structure Canvas where
  px : Display
  hit : Bool
deriving DecidableEq, Repr

/-- One 1 bit of a sprite at a row and a column that may lie past the right edge: flip the pixel and note a collision, or
drop it when the column is above 63 (R141; C3). -/
def plot (c : Canvas) (row : Fin 32) (col : Nat) : Canvas :=
  if h : col < 64 then
    { px := flipPixel c.px row ⟨col, h⟩, hit := c.hit || pixel c.px row ⟨col, h⟩ }
  else c

/-- The bit of a sprite byte at a column offset 0 to 7: bit 7 is the leftmost (R142; the spec's decision D21). -/
def spriteBit (b : Byte) (c : Nat) : Bool := b.getLsbD (7 - c)

/-- The first `k` columns of one sprite row `b`, its left edge at column `x0` (the inner loop of R141). -/
def drawColumns (b : Byte) (row : Fin 32) (x0 : Nat) : Nat → Canvas → Canvas
  | 0, c => c
  | k + 1, c =>
    let c' := drawColumns b row x0 k c
    if spriteBit b k then plot c' row (x0 + k) else c'

/-- A row coordinate wraps: `k mod 32` (R141). -/
def displayRow (k : Nat) : Fin 32 := Fin.ofNat 32 k

/-- The first `n` rows of a sprite whose row `r` is the byte `rows r`, its top edge at row `y0`; the row coordinate wraps
(the outer loop of R141). -/
def drawRows (rows : Nat → Byte) (x0 y0 : Nat) : Nat → Canvas → Canvas
  | 0, c => c
  | n + 1, c => drawColumns (rows n) (displayRow (y0 + n)) x0 8 (drawRows rows x0 y0 n c)

/-! ## Placing a program's bytes -/

/-- The two bytes of a word at address `a`, most significant first (R52). -/
def State.storeWord (s : State) (a : Nat) (w : Word) : State :=
  (s.storeByte a (w.extractLsb' 8 8)).storeByte (a + 1) (w.extractLsb' 0 8)

/-- Consecutive bytes from address `a` upwards. -/
def State.storeBytes (s : State) (a : Nat) : List Byte → State
  | [] => s
  | b :: bs => (s.storeByte a b).storeBytes (a + 1) bs

end Sys2Proof.Machine
end

