-- ==== Sys2Proof/Machine/Operands.lean ====
section
/-! DEFINITION. The operand forms (spec/30_encoding.md R73): immediates, the one data addressing mode (R136), the shifted
operand (R118), key numbers (R156), sprite coordinates (R141) and decimal digits (R133). -/

namespace Sys2Proof.Machine

/-- `zext_16(nnn)` (R73). -/
def zext16 (nnn : Addr) : Word := nnn.setWidth 16

/-- `EA(k) = (I + k) mod 4096`, the address of the k-th byte an instruction touches (R136, R56; the wrap is the spec's
decision D5). -/
def State.ea (s : State) (k : Nat) : Nat := (s.I.toNat + k) % 4096

/-- The operand of a shift: `V[x]` or `V[y]` by `SHIFT_SOURCE` (R118, R120). -/
def State.shiftOperand (s : State) (x y : Reg) : Byte :=
  match s.cfg.shiftSource with
  | .vx => s.reg x
  | .vy => s.reg y

/-- The key a register value selects: its low four bits (R156; the spec's decision D6). -/
def keyOfByte (v : Byte) : Key := Fin.ofNat 16 v.toNat

/-- The column of a sprite's left edge: `V[x] mod 64` (R141). -/
def spriteX (v : Byte) : Nat := v.toNat % 64

/-- The row of a sprite's top edge: `V[y] mod 32` (R141). -/
def spriteY (v : Byte) : Nat := v.toNat % 32

/-- `v div 100` (R133). -/
def hundreds (v : Byte) : Byte := BitVec.ofNat 8 (v.toNat / 100)

/-- `(v div 10) mod 10` (R133). -/
def tens (v : Byte) : Byte := BitVec.ofNat 8 (v.toNat / 10 % 10)

/-- `v mod 10` (R133). -/
def ones (v : Byte) : Byte := BitVec.ofNat 8 (v.toNat % 10)

/-- `(I + V[x]) mod 4096` (R131, C6). -/
def indexPlus (i : Word) (v : Byte) : Word := BitVec.ofNat 16 ((i.toNat + v.toNat) % 4096)

/-- `0x050 + V[x] * 5`, from all 8 bits of `V[x]` (R132). -/
def glyphAddress (v : Byte) : Word := BitVec.ofNat 16 (0x050 + v.toNat * 5)

/-- `zext_16(nnn) + zext_16(V[0])`, 16 bits, not reduced (R107). -/
def jumpOffset (nnn : Addr) (v : Byte) : Word := zext16 nnn + v.setWidth 16

end Sys2Proof.Machine
end

