-- ==== Sys2Proof/Machine/Cycle.lean ====
section
/-! DEFINITION. The phases of a step around the execute phase (spec/40_cycle.md R90 to R98), and placing a word where the
next fetch reads it. -/

namespace Sys2Proof.Machine

/-- Fetch fails if `pc + 1 >= 4096`, on the unreduced 16-bit pc (R91, R55). -/
def State.fetchOutOfBounds (s : State) : Bool := decide (s.pc.toNat + 1 ≥ 4096)

/-- The two bytes at pc and pc + 1, in memory order (R91). pc may be odd (R54). -/
def State.fetchBytes (s : State) : List Byte := [s.byteAt s.pc.toNat, s.byteAt (s.pc.toNat + 1)]

/-- The word fetched: `mem[pc] :: mem[pc + 1]` (R91, R52). -/
def State.fetchWord (s : State) : Word := wordOfBytes (s.byteAt s.pc.toNat) (s.byteAt (s.pc.toNat + 1))

/-- Fetch and advance: `current_opcode <- w; pc <- pc0 + 2` (R91, R92). It happens for every fetched word, legal or not. -/
def State.fetched (s : State) : State := { s with currentOpcode := s.fetchWord, pc := s.pc + 2#16 }

/-- The timer tick on one timer: down by one while nonzero (R95). -/
def tickByte (v : Byte) : Byte := if v = 0#8 then 0#8 else v - 1#8

/-- The timer tick (R95). -/
def State.tick (s : State) : State := { s with DT := tickByte s.DT, ST := tickByte s.ST }

/-- The draw flag at the end of the execute phase: whether some pixel differs from the display at the start of the step
(R96). -/
def State.setDrawFlag (s : State) (before : Display) : State := { s with drawFlag := decide (s.px ≠ before) }

/-- The end of a step that completes: draw flag, then timer tick (R90, R96, R95). -/
def State.complete (s : State) (before : Display) : State := (s.setDrawFlag before).tick

/-- The end of a step whose execute phase answered `s`: a fault raised there ends the step at once (R97); otherwise the step
completes. -/
def State.finish (s : State) (before : Display) : State := if s.halted then s else s.complete before

/-- A lenient no-op: nothing is executed, `draw_flag <- 0`, and the timers tick (R77, R93). -/
def State.noOp (s : State) : State := { s with drawFlag := false }.tick

/-- One step (R90), over the execute phase `execute`. -/
def cycle (execute : Instr → State → Host.Outcome State Fault Refusal) (s : State) :
    Host.Outcome State Fault Refusal :=
  if s.halted then .next s
  else if s.fetchOutOfBounds then .next (s.raise .outOfBoundsFetch 0x0000#16 s.pc)
  else
    match decode s.fetchBytes with
    | .error _ =>
      if s.cfg.strictDecode then .next (s.fetched.raiseHere .unknownOpcode) else .next s.fetched.noOp
    | .ok (i, _) =>
      match execute i s.fetched with
      | .next t => .next (t.finish s.px)
      | .fault f => .fault f
      | .refused r => .refused r

/-- The state with a word of the opcode table's numbering stored at pc, where the next step fetches it. It stands for the
host's load (R182, R183; log entry 5). -/
def State.placeTableWord (s : State) (nbits w : Nat) : State := s.storeWord s.pc.toNat (tableWord nbits w)

end Sys2Proof.Machine
end

