-- ==== Sys2Proof/Machine/Flags.lean ====
section
/-! DEFINITION. Every flag computation of spec/10_state.md R21, and the write order of spec/42_alu.md R123. -/

namespace Sys2Proof.Machine

/-- A flag as the byte `VF` receives: 0x00 or 0x01 (R21). -/
def flagByte (c : Bool) : Byte := if c then 0x01#8 else 0x00#8

/-- `8xy4`: 1 if the sum exceeds 255 (R116). -/
def carryFlag (a b : Byte) : Bool := decide (a.toNat + b.toNat > 255)

/-- `8xy5` and `8xy7`: 0 if the minuend `a` is at most the subtrahend `b`, else 1; equal operands give 0 (R117, R119; C4). -/
def greaterFlag (a b : Byte) : Bool := if a.toNat ≤ b.toNat then false else true

/-- `8xy6`: bit 0 of the operand (R118). -/
def rightOutFlag (v : Byte) : Bool := v.getLsbD 0

/-- `8xyE`: bit 7 of the operand (R120). -/
def leftOutFlag (v : Byte) : Bool := v.getLsbD 7

/-- Write the flag first and the result second, both computed from operands latched before (R123; the latch is the spec's
decision D4): with `x = 15` the result survives. -/
def State.flagThenResult (s : State) (x : Reg) (flag : Bool) (result : Byte) : State :=
  (s.setReg regF (flagByte flag)).setReg x result

end Sys2Proof.Machine
end

