-- ==== Sys2Proof/Machine/Alu.lean ====
section
/-! DEFINITION. Register load, arithmetic and logic (spec/42_alu.md): `6xnn` `7xnn` `8xy0` to `8xy7` `8xyE` `Cxnn`.
Operands are read before anything is written (R123). -/

namespace Sys2Proof.Machine

/-- `6xnn`: `V[x] <- nn` (R110). -/
def execLdImm (x : Reg) (nn : Byte) (s : State) : Host.Outcome State Fault Refusal :=
  .next (s.setReg x nn)

/-- `7xnn`: `V[x] <- (V[x] + nn) mod 256`, no flag (R111). -/
def execAddImm (x : Reg) (nn : Byte) (s : State) : Host.Outcome State Fault Refusal :=
  .next (s.setReg x (s.reg x + nn))

/-- `8xy0`: `V[x] <- V[y]` (R112). -/
def execLdReg (x y : Reg) (s : State) : Host.Outcome State Fault Refusal :=
  .next (s.setReg x (s.reg y))

/-- `8xy1`: `V[x] <- V[x] OR V[y]`; `VF` is not written (R113). -/
def execOrReg (x y : Reg) (s : State) : Host.Outcome State Fault Refusal :=
  .next (s.setReg x (s.reg x ||| s.reg y))

/-- `8xy2`: `V[x] <- V[x] AND V[y]`; `VF` is not written (R114). -/
def execAndReg (x y : Reg) (s : State) : Host.Outcome State Fault Refusal :=
  .next (s.setReg x (s.reg x &&& s.reg y))

/-- `8xy3`: `V[x] <- V[x] XOR V[y]`; `VF` is not written (R115). -/
def execXorReg (x y : Reg) (s : State) : Host.Outcome State Fault Refusal :=
  .next (s.setReg x (s.reg x ^^^ s.reg y))

/-- `8xy4`: `VF <- carry`, `V[x] <- sum mod 256` (R116). -/
def execAddReg (x y : Reg) (s : State) : Host.Outcome State Fault Refusal :=
  .next (s.flagThenResult x (carryFlag (s.reg x) (s.reg y)) (s.reg x + s.reg y))

/-- `8xy5`: `VF <- 0 if V[x] <= V[y] else 1`, `V[x] <- (V[x] - V[y]) mod 256` (R117). -/
def execSubReg (x y : Reg) (s : State) : Host.Outcome State Fault Refusal :=
  .next (s.flagThenResult x (greaterFlag (s.reg x) (s.reg y)) (s.reg x - s.reg y))

/-- `8xy6`: `VF <- s[0]`, `V[x] <- s div 2`, where `s` is the shifted operand (R118). -/
def execShrReg (x y : Reg) (s : State) : Host.Outcome State Fault Refusal :=
  .next (s.flagThenResult x (rightOutFlag (s.shiftOperand x y)) (s.shiftOperand x y >>> 1))

/-- `8xy7`: `VF <- 0 if V[y] <= V[x] else 1`, `V[x] <- (V[y] - V[x]) mod 256` (R119). -/
def execSubnReg (x y : Reg) (s : State) : Host.Outcome State Fault Refusal :=
  .next (s.flagThenResult x (greaterFlag (s.reg y) (s.reg x)) (s.reg y - s.reg x))

/-- `8xyE`: `VF <- s[7]`, `V[x] <- (s * 2) mod 256`, where `s` is the shifted operand (R120). -/
def execShlReg (x y : Reg) (s : State) : Host.Outcome State Fault Refusal :=
  .next (s.flagThenResult x (leftOutFlag (s.shiftOperand x y)) (s.shiftOperand x y <<< 1))

/-- `V[x] <- rand8 AND nn` for a draw `rand8`, which is counted as taken (R121). -/
def State.randomInto (s : State) (rand8 : Byte) (x : Reg) (nn : Byte) : State :=
  { s.setReg x (rand8 &&& nn) with draws := s.draws + 1 }

/-- `Cxnn`: `V[x] <- rand8 AND nn`, one draw per executed instruction (R121). The draw is the free value
`Config.rand8 s.draws` (log entry 2). -/
def execRnd (x : Reg) (nn : Byte) (s : State) : Host.Outcome State Fault Refusal :=
  .next (s.randomInto (Config.rand8 s.draws) x nn)

end Sys2Proof.Machine
end

