-- ==== Sys2Proof/Machine/Control.lean ====
section
/-! DEFINITION. The control-flow instructions (spec/41_control_flow.md): `00EE` `1nnn` `2nnn` `3xnn` `4xnn` `5xy0` `9xy0`
`Bnnn`. On entry `pc = pc0 + 2` and `current_opcode` is the instruction's word (R11, R94). -/

namespace Sys2Proof.Machine

/-- `00EE`: pop the return address into pc; StackUnderflow when `sp == 0` (R100, R165). -/
def execRet (s : State) : Host.Outcome State Fault Refusal :=
  match s.pop with
  | some (t, a) => .next (t.jump a)
  | none => .next (s.raiseHere .stackUnderflow)

/-- `1nnn`: `pc <- nnn` (R101). -/
def execJp (nnn : Addr) (s : State) : Host.Outcome State Fault Refusal :=
  .next (s.jump (zext16 nnn))

/-- `2nnn`: push the advanced pc, then `pc <- nnn`; StackOverflow when `sp == 16` (R102, R164). -/
def execCall (nnn : Addr) (s : State) : Host.Outcome State Fault Refusal :=
  match s.push s.pc with
  | some t => .next (t.jump (zext16 nnn))
  | none => .next (s.raiseHere .stackOverflow)

/-- `3xnn`: skip if `V[x] == nn` (R103). -/
def execSeImm (x : Reg) (nn : Byte) (s : State) : Host.Outcome State Fault Refusal :=
  .next (s.skipIf (s.reg x == nn))

/-- `4xnn`: skip if `V[x] != nn` (R104). -/
def execSneImm (x : Reg) (nn : Byte) (s : State) : Host.Outcome State Fault Refusal :=
  .next (s.skipIf (s.reg x != nn))

/-- `5xy0`: skip if `V[x] == V[y]` (R105). -/
def execSeReg (x y : Reg) (s : State) : Host.Outcome State Fault Refusal :=
  .next (s.skipIf (s.reg x == s.reg y))

/-- `9xy0`: skip if `V[x] != V[y]` (R106). -/
def execSneReg (x y : Reg) (s : State) : Host.Outcome State Fault Refusal :=
  .next (s.skipIf (s.reg x != s.reg y))

/-- `Bnnn`: `pc <- nnn + V[0]`, not reduced mod 4096 (R107). -/
def execJpV0 (nnn : Addr) (s : State) : Host.Outcome State Fault Refusal :=
  .next (s.jump (jumpOffset nnn (s.reg 0)))

end Sys2Proof.Machine
end

