-- ==== Sys2Proof/Machine/Display.lean ====
section
/-! DEFINITION. The display instructions (spec/44_display.md): `00E0` and `Dxyn`. The draw flag is set by the step that
frames them (Machine/Cycle.lean). -/

namespace Sys2Proof.Machine

/-- `00E0`: every pixel unlit; `VF` is not written (R140). -/
def execCls (s : State) : Host.Outcome State Fault Refusal :=
  .next { s with px := clearDisplay }

/-- The display after drawing `n` rows from `mem[I..I+n)` at (`V[x] mod 64`, `V[y] mod 32`), with the collision (R141). -/
def State.drawn (s : State) (x y : Reg) (n : Nat) : Canvas :=
  drawRows (fun r => s.byteAt (s.ea r)) (spriteX (s.reg x)) (spriteY (s.reg y)) n { px := s.px, hit := false }

/-- `Dxyn`: XOR the sprite onto the display, then `VF <- hit`, which is always written (R141). -/
def execDrw (x y : Reg) (n : Nibble) (s : State) : Host.Outcome State Fault Refusal :=
  .next ({ s with px := (s.drawn x y n.toNat).px }.setReg regF (flagByte (s.drawn x y n.toNat).hit))

end Sys2Proof.Machine
end

