-- ==== Sys2Proof/Machine/IndexMemory.lean ====
section
/-! DEFINITION. The index-register and memory instructions (spec/43_index_memory.md): `Annn` `Fx1E` `Fx29` `Fx33` `Fx55`
`Fx65`. None writes `VF` as a flag, none changes pc, none can fault. -/

namespace Sys2Proof.Machine

/-- `I <- v`. -/
def State.setI (s : State) (v : Word) : State := { s with I := v }

/-- `Annn`: `I <- nnn` (R130). -/
def execLdI (nnn : Addr) (s : State) : Host.Outcome State Fault Refusal :=
  .next (s.setI (zext16 nnn))

/-- `Fx1E`: `I <- (I + V[x]) mod 4096`, no flag (R131). -/
def execAddIVx (x : Reg) (s : State) : Host.Outcome State Fault Refusal :=
  .next (s.setI (indexPlus s.I (s.reg x)))

/-- `Fx29`: `I <- 0x050 + V[x] * 5` (R132). -/
def execLdFVx (x : Reg) (s : State) : Host.Outcome State Fault Refusal :=
  .next (s.setI (glyphAddress (s.reg x)))

/-- `Fx33`: hundreds, tens and ones of `V[x]` to `mem[I]`, `mem[I+1]`, `mem[I+2]`; addresses wrap (R133). -/
def execLdBVx (x : Reg) (s : State) : Host.Outcome State Fault Refusal :=
  .next (((s.storeByte (s.ea 0) (hundreds (s.reg x))).storeByte (s.ea 1) (tens (s.reg x))).storeByte (s.ea 2)
    (ones (s.reg x)))

/-- The first `k` registers stored from `I` upwards, in ascending order (the loop of R134). -/
def State.storeRegisters (s : State) : Nat → State
  | 0 => s
  | k + 1 => (s.storeRegisters k).storeByte (s.ea k) (s.reg (regNumber k))

/-- `Fx55`: `V[0]` to `V[x]` to `mem[I]` to `mem[I+x]`; `I` is not changed (R134). -/
def execStoreRegs (x : Reg) (s : State) : Host.Outcome State Fault Refusal :=
  .next (s.storeRegisters (x.val + 1))

/-- The first `k` registers loaded from `I` upwards, in ascending order (the loop of R135). -/
def State.loadRegisters (s : State) : Nat → State
  | 0 => s
  | k + 1 => (s.loadRegisters k).setReg (regNumber k) (s.byteAt (s.ea k))

/-- `Fx65`: `mem[I]` to `mem[I+x]` to `V[0]` to `V[x]`; `I` is not changed (R135). -/
def execLoadRegs (x : Reg) (s : State) : Host.Outcome State Fault Refusal :=
  .next (s.loadRegisters (x.val + 1))

end Sys2Proof.Machine
end

