-- ==== Sys2Proof/Machine/TimerKeypad.lean ====
section
/-! DEFINITION. The timer and keypad instructions (spec/45_timer_keypad.md): `Fx07` `Fx15` `Fx18` `Ex9E` `ExA1` `Fx0A`. The
timer tick is the step's (Machine/Cycle.lean): it sees what `Fx15` and `Fx18` write here. -/

namespace Sys2Proof.Machine

/-- `Fx07`: `V[x] <- DT`, before this step's tick (R150). -/
def execLdVxDT (x : Reg) (s : State) : Host.Outcome State Fault Refusal :=
  .next (s.setReg x s.DT)

/-- `Fx15`: `DT <- V[x]` (R151). -/
def execLdDTVx (x : Reg) (s : State) : Host.Outcome State Fault Refusal :=
  .next { s with DT := s.reg x }

/-- `Fx18`: `ST <- V[x]` (R152). -/
def execLdSTVx (x : Reg) (s : State) : Host.Outcome State Fault Refusal :=
  .next { s with ST := s.reg x }

/-- `Ex9E`: skip if key `V[x] mod 16` is pressed (R153, R156). -/
def execSkp (x : Reg) (s : State) : Host.Outcome State Fault Refusal :=
  .next (s.skipIf (s.keyDown (keyOfByte (s.reg x))))

/-- `ExA1`: skip if key `V[x] mod 16` is not pressed (R154, R156). -/
def execSknp (x : Reg) (s : State) : Host.Outcome State Fault Refusal :=
  .next (s.skipIf (!s.keyDown (keyOfByte (s.reg x))))

/-- A key number as the byte a register receives, zero-extended (R155). -/
def byteOfKey (k : Key) : Byte := BitVec.ofNat 8 k.val

/-- `Fx0A`: with a key pressed, `V[x]` receives the lowest; with none, `pc <- pc - 2`, so that the next step fetches the same
instruction (R155). -/
def execLdVxK (x : Reg) (s : State) : Host.Outcome State Fault Refusal :=
  match s.lowestKey with
  | some k => .next (s.setReg x (byteOfKey k))
  | none => .next (s.jump s.pc0)

end Sys2Proof.Machine
end

