-- ==== Sys2Proof/Machine/Step.lean ====
section
/-! DEFINITION. The one transition of the machine (spec/40_cycle.md R90), and the host's way to place an instruction. -/

namespace Sys2Proof.Machine

/-- One step: halted check, fetch, advance, decode, execute, draw flag, timer tick (R90). -/
def step (s : State) : Host.Outcome State Fault Refusal := cycle exec s

/-- `s` with the instruction of the opcode table's bits `w` at pc, where the next step fetches it; nothing else changes. -/
def State.withFetchWord (s : State) (nbits w : Nat) : State := s.placeTableWord nbits w

end Sys2Proof.Machine
end

