-- ==== Sys2Proof/WellFormed.lean ====
section
/-! DEFINITION. Well-formedness: of an instruction, of a configuration (spec/00_scope.md R6) and of a program image
(spec/70_reset_and_hazards.md R182). -/

namespace Sys2Proof

/-- Every instruction is well formed: its fields carry their widths in their types, and "all 16 values are legal in every
instruction that has the field" (R73), every immediate likewise. One arm per constructor, so that a new instruction with a
field of its own cannot slip past. -/
def Instr.wellFormed : Instr → Bool
  | .cls => true
  | .ret => true
  | .jp _ => true
  | .call _ => true
  | .seImm _ _ => true
  | .sneImm _ _ => true
  | .seReg _ _ => true
  | .ldImm _ _ => true
  | .addImm _ _ => true
  | .ldReg _ _ => true
  | .orReg _ _ => true
  | .andReg _ _ => true
  | .xorReg _ _ => true
  | .addReg _ _ => true
  | .subReg _ _ => true
  | .shrReg _ _ => true
  | .subnReg _ _ => true
  | .shlReg _ _ => true
  | .sneReg _ _ => true
  | .ldI _ => true
  | .jpV0 _ => true
  | .rnd _ _ => true
  | .drw _ _ _ => true
  | .skp _ => true
  | .sknp _ => true
  | .ldVxDT _ => true
  | .ldVxK _ => true
  | .ldDTVx _ => true
  | .ldSTVx _ => true
  | .addIVx _ => true
  | .ldFVx _ => true
  | .ldBVx _ => true
  | .storeRegs _ => true
  | .loadRegs _ => true

/-- A font's bytes 50 to 54 are `F0 90 F0 90 90`, the one glyph the source prints (R6 `FONT_TABLE`). That it has 80 bytes
is in its type. -/
def FontTable.wellFormed (f : FontTable) : Bool :=
  (f.toList.drop 50).take 5 == [0xF0#8, 0x90#8, 0xF0#8, 0x90#8, 0x90#8]

/-- A configuration is legal when its font is (R6): both values of the other two parameters are. -/
def Config.wellFormed (c : Config) : Bool := c.fontTable.wellFormed

/-- `MAX_PROGRAM` of R5: `4096 - 0x200` bytes. -/
def maxProgram : Nat := 3584

/-- A program image that the load operation accepts: at most 3584 bytes, of any values (R182). -/
def imageWellFormed (image : List Byte) : Bool := decide (image.length ≤ maxProgram)

end Sys2Proof
end

