-- ==== Sys2Proof/Machine/Boundary.lean ====
section
/-! DEFINITION. The host's moves between steps (spec/70_reset_and_hazards.md R180, R182, R184; spec/10_state.md R26), as
they change State. When the host has which of them is Machine/Session.lean. What the host reads (R38) are fields of State. -/

namespace Sys2Proof.Machine

/-- Reset: every element zero, `FONT_TABLE` at 0x050 to 0x09F, `pc <- 0x0200` (R180). The static configuration stays (R38),
and the random source is outside the core (R34), so the draw counter goes on (log entry 2). -/
def hostReset (s : State) : State :=
  { State.reset.storeBytes 0x050 s.cfg.fontTable.toList with cfg := s.cfg, draws := s.draws }

/-- Load: the image verbatim from 0x200 upwards, or ProgramTooLarge with no change at all (R182). The host has this move
only after a reset and before the first step, once: `Session.loadMove` of Machine/Session.lean holds that order (R183). -/
def hostLoad (image : List Byte) (s : State) : Except LoadError State :=
  if imageWellFormed image then .ok (s.storeBytes 0x200 image) else .error .programTooLarge

/-- The host writes the keypad between steps (R26). -/
def hostSetKeys (keys : Vector Bool 16) (s : State) : State := { s with key := keys }

end Sys2Proof.Machine
end

