-- ==== Sys2Proof/Machine/Session.lean ====
section
/-! DEFINITION. A session of the host with the core (spec/70_reset_and_hazards.md R181, R183, R184): which move the host has
when. It wraps State from outside: how far the boot sequence has come is the host's obligation and no element of the core. -/

namespace Sys2Proof.Machine

/-- How far the boot sequence of R183 has come since the last reset. -/
inductive BootPhase where
  /-- Reset, no program loaded, no step taken: the one phase in which the host has the load move. -/
  | fresh
  /-- A load has answered `ok`, no step taken. -/
  | loaded
  /-- At least one step was taken. -/
  | stepped
deriving DecidableEq, Repr

/-- The core as its host has it. -/
inductive Session where
  /-- Created and never reset: no element of the state has a value (R181), only the static inputs do (R38; log entry 7). -/
  | created (cfg : Config)
  /-- Reset at least once. -/
  | up (phase : BootPhase) (s : State)
deriving DecidableEq, Repr

/-- The moves of the host (R184, R38), complete. It reads outputs as fields of State, and it stops by making no more moves. -/
inductive HostMove where
  | reset
  | load (image : List Byte)
  | step
  | setKeys (keys : Vector Bool 16)
deriving DecidableEq, Repr

/-- Why the host has no such move. -/
inductive HostRefusal where
  /-- Raised by every move but a reset on a core that was never reset (R181). Safe: the spec gives it no result. -/
  | notReset
  /-- Raised by a load after the first step, or a second load, since the last reset (R183; V2 of
  93_implementation_defined.md). Safe: the spec gives the host no right to that move. -/
  | loadNotAllowed
  /-- Raised by a step that is refused; no step of this model is. Safe. -/
  | step (r : Refusal)
deriving DecidableEq, Repr

/-- What a move answers: the session after it, and for a load that failed its result, which the host receives (R166). -/
abbrev MoveOutcome := Host.Outcome (Session × Option LoadError) Fault HostRefusal

/-- The load move: once, after a reset and before the first step (R183). A load that fails leaves everything as it was (R182),
so the host may still load. -/
def Session.loadMove (image : List Byte) (s : State) : BootPhase → MoveOutcome
  | .fresh =>
    match hostLoad image s with
    | .ok t => .next (.up .loaded t, none)
    | .error e => .next (.up .fresh s, some e)
  | .loaded => .refused .loadNotAllowed
  | .stepped => .refused .loadNotAllowed

/-- The step move. It is defined with no program loaded too (R183). -/
def Session.stepMove (s : State) : MoveOutcome :=
  match Machine.step s with
  | .next t => .next (.up .stepped t, none)
  | .fault f => .fault f
  | .refused r => .refused (.step r)

/-- The state a reset leaves of a core that was never reset: that of R36, with the static inputs it was created with. -/
def firstReset (cfg : Config) : State := hostReset { State.reset with cfg := cfg }

/-- One move of the host. Reset may be requested at any time between steps (R180). The keypad may be written whenever no step
runs, from the first reset on (R26; before the first step too, log entry 6). -/
def Session.move (w : Session) (m : HostMove) : MoveOutcome :=
  match w, m with
  | .created cfg, .reset => .next (.up .fresh (firstReset cfg), none)
  | .created _, .load _ => .refused .notReset
  | .created _, .step => .refused .notReset
  | .created _, .setKeys _ => .refused .notReset
  | .up _ s, .reset => .next (.up .fresh (hostReset s), none)
  | .up p s, .load image => Session.loadMove image s p
  | .up _ s, .step => Session.stepMove s
  | .up p s, .setKeys keys => .next (.up p (hostSetKeys keys s), none)

/-- A run: the moves of the host in order. It ends when the host makes no more of them, or at the first move it does not have.
DESIGN CHOICE (log entry 25): the spec fixes no end of a run (R191, its decision D25). -/
def Session.run : List HostMove → Session → Host.Outcome Session Fault HostRefusal
  | [], w => .next w
  | m :: ms, w =>
    match w.move m with
    | .next (v, _) => Session.run ms v
    | .fault f => .fault f
    | .refused r => .refused r

end Sys2Proof.Machine
end

