-- ==== Sys2Proof/Safety.lean ====
section
/-! DEFINITION. What a safe run is, and the terms in which claims are stated: which elements of the state an operation
changes, who writes what (spec/10_state.md R20, R35), where a sprite has a 1 bit (spec/44_display.md R141), the opcode
table's masks (spec/30_encoding.md R81) and the invariants of spec/10_state.md R37. -/

namespace Sys2Proof.Machine

/-- A run of `k` steps from `s` raises no fault: "a model should treat some step faulted as a failure of any claim that does
not name the fault" (60_exceptions.md R169). DESIGN CHOICE (log entry 25): the end of a run, which the spec leaves to each claim
(70_reset_and_hazards.md R191, its decision D25), is a step count `k` that the claim names. -/
def runsSafely : Nat → State → Bool
  | 0, s => !s.halted
  | k + 1, s =>
    !s.halted &&
      match step s with
      | .next t => runsSafely k t
      | .fault _ => false
      | .refused _ => false

/-- The core runs, and the two bytes at pc are in memory and decode to `i` (R91, R93). -/
def Fetches (s : State) (i : Instr) : Prop :=
  s.halted = false ∧ s.pc.toNat + 1 < 4096 ∧
    decodeWord (wordOfBytes (s.byteAt s.pc.toNat) (s.byteAt (s.pc.toNat + 1))) = .ok i

/-- The instruction a running step would fetch, if pc leaves room for it and its word is one of the 34 (R91, R93). -/
def fetchedInstr (s : State) : Option Instr :=
  if s.pc.toNat + 1 < 4096 then
    match decodeWord (wordOfBytes (s.byteAt s.pc.toNat) (s.byteAt (s.pc.toNat + 1))) with
    | .ok i => some i
    | .error _ => none
  else none

/-- The fault a step of a running core raises, by the table of R161; `none` where it completes. -/
def raisedFault (s : State) : Option Fault :=
  if 4096 ≤ s.pc.toNat + 1 then some .outOfBoundsFetch
  else
    match fetchedInstr s with
    | none => if s.cfg.strictDecode then some .unknownOpcode else none
    | some (.call _) => if s.sp.val = 16 then some .stackOverflow else none
    | some .ret => if s.sp.val = 0 then some .stackUnderflow else none
    | some _ => none

/-- The condition of a skip instruction, by its own rule (R103 to R106, R153, R154); `none` for the other instructions. -/
def skipCondition (s : State) : Instr → Option Bool
  | .seImm x nn => some (s.reg x == nn)
  | .sneImm x nn => some (s.reg x != nn)
  | .seReg x y => some (s.reg x == s.reg y)
  | .sneReg x y => some (s.reg x != s.reg y)
  | .skp x => some (s.keyDown (keyOfByte (s.reg x)))
  | .sknp x => some (!s.keyDown (keyOfByte (s.reg x)))
  | _ => none

/-- The elements of the state, as the table of R35 names them, with the static configuration and the model's draw counter. -/
inductive Element where
  | registers
  | index
  | programCounter
  | callStack
  | delayTimer
  | soundTimer
  | keypad
  | display
  | currentOpcode
  | drawFlag
  | faultRecord
  | memory
  | config
  | draws
deriving DecidableEq, Repr

/-- Two states agree on an element. Memory is compared byte by byte, through the model's read. -/
def agreeOn (s t : State) : Element → Prop
  | .registers => ∀ r, t.reg r = s.reg r
  | .index => t.I = s.I
  | .programCounter => t.pc = s.pc
  | .callStack => t.sp = s.sp ∧ t.stack = s.stack
  | .delayTimer => t.DT = s.DT
  | .soundTimer => t.ST = s.ST
  | .keypad => t.key = s.key
  | .display => t.px = s.px
  | .currentOpcode => t.currentOpcode = s.currentOpcode
  | .drawFlag => t.drawFlag = s.drawFlag
  | .faultRecord => t.fault = s.fault
  | .memory => ∀ a, t.byteAt a = s.byteAt a
  | .config => t.cfg = s.cfg
  | .draws => t.draws = s.draws

/-- From `s` to `t` nothing outside the listed elements changes. -/
def OnlyChanges (es : List Element) (s t : State) : Prop := ∀ e, e ∉ es → agreeOn s t e

/-- From `s` to `t` no general register outside the listed ones changes. -/
def KeepsRegsBut (rs : List Reg) (s t : State) : Prop := ∀ r, r ∉ rs → t.reg r = s.reg r

/-- The elements an instruction's execute phase may change, from the instruction's own rule and the writers that R20 to R27, R30
and R35 name; the draw counter is the model's own (log entry 2). -/
def executeWrites : Instr → List Element
  | .cls => [.display]
  | .ret => [.programCounter, .callStack, .faultRecord]
  | .jp _ => [.programCounter]
  | .call _ => [.programCounter, .callStack, .faultRecord]
  | .seImm _ _ => [.programCounter]
  | .sneImm _ _ => [.programCounter]
  | .seReg _ _ => [.programCounter]
  | .ldImm _ _ => [.registers]
  | .addImm _ _ => [.registers]
  | .ldReg _ _ => [.registers]
  | .orReg _ _ => [.registers]
  | .andReg _ _ => [.registers]
  | .xorReg _ _ => [.registers]
  | .addReg _ _ => [.registers]
  | .subReg _ _ => [.registers]
  | .shrReg _ _ => [.registers]
  | .subnReg _ _ => [.registers]
  | .shlReg _ _ => [.registers]
  | .sneReg _ _ => [.programCounter]
  | .ldI _ => [.index]
  | .jpV0 _ => [.programCounter]
  | .rnd _ _ => [.registers, .draws]
  | .drw _ _ _ => [.registers, .display]
  | .skp _ => [.programCounter]
  | .sknp _ => [.programCounter]
  | .ldVxDT _ => [.registers]
  | .ldVxK _ => [.registers, .programCounter]
  | .ldDTVx _ => [.delayTimer]
  | .ldSTVx _ => [.soundTimer]
  | .addIVx _ => [.index]
  | .ldFVx _ => [.index]
  | .ldBVx _ => [.memory]
  | .storeRegs _ => [.memory]
  | .loadRegs _ => [.registers]

/-- The general registers an instruction may write, from the tables of R20 and R21. -/
def writesReg : Instr → Reg → Bool
  | .ldImm x _, r => r == x
  | .addImm x _, r => r == x
  | .ldReg x _, r => r == x
  | .orReg x _, r => r == x
  | .andReg x _, r => r == x
  | .xorReg x _, r => r == x
  | .addReg x _, r => r == x || r == regF
  | .subReg x _, r => r == x || r == regF
  | .shrReg x _, r => r == x || r == regF
  | .subnReg x _, r => r == x || r == regF
  | .shlReg x _, r => r == x || r == regF
  | .rnd x _, r => r == x
  | .drw _ _ _, r => r == regF
  | .ldVxDT x, r => r == x
  | .ldVxK x, r => r == x
  | .loadRegs x, r => decide (r ≤ x)
  | .cls, _ => false
  | .ret, _ => false
  | .jp _, _ => false
  | .call _, _ => false
  | .seImm _ _, _ => false
  | .sneImm _ _, _ => false
  | .seReg _ _, _ => false
  | .sneReg _ _, _ => false
  | .ldI _, _ => false
  | .jpV0 _, _ => false
  | .skp _, _ => false
  | .sknp _, _ => false
  | .ldDTVx _, _ => false
  | .ldSTVx _, _ => false
  | .addIVx _, _ => false
  | .ldFVx _, _ => false
  | .ldBVx _, _ => false
  | .storeRegs _, _ => false

/-- Whether a sprite of `n` rows (row `r` the byte `rows r`) with its top left corner at column `x0`, row `y0` (below 32) has
a 1 bit on a pixel: the display row is `(y0 + r) mod 32` for some `r < n`, the column is `x0 + c` for some `c < 8` with no
wrap, and bit `7 - c` of the row's byte is 1 (R141, R142). -/
def spriteCovers (rows : Nat → Byte) (x0 y0 n : Nat) (row : Fin 32) (col : Fin 64) : Bool :=
  decide ((row.val + 32 - y0) % 32 < n) && decide (x0 ≤ col.val) && decide (col.val < x0 + 8) &&
    (rows ((row.val + 32 - y0) % 32)).getLsbD (7 - (col.val - x0))

/-- The 1 bits of the sprite that `Dxyn` draws in state `s` (R141). -/
def drwCovers (s : State) (x y : Reg) (n : Nibble) : Fin 32 → Fin 64 → Bool :=
  spriteCovers (fun r => s.byteAt (s.I.toNat + r)) ((s.reg x).toNat % 64) ((s.reg y).toNat % 32) n.toNat

/-- A row of the opcode table: `w` is this instruction iff `w AND mask == match` (R81). -/
structure OpcodeRow where
  mask : Word
  bits : Word
deriving DecidableEq, Repr

/-- The mask and match of an instruction's row (R81). -/
def opcodeRow : Instr → OpcodeRow
  | .cls => ⟨0xFFFF#16, 0x00E0#16⟩
  | .ret => ⟨0xFFFF#16, 0x00EE#16⟩
  | .jp _ => ⟨0xF000#16, 0x1000#16⟩
  | .call _ => ⟨0xF000#16, 0x2000#16⟩
  | .seImm _ _ => ⟨0xF000#16, 0x3000#16⟩
  | .sneImm _ _ => ⟨0xF000#16, 0x4000#16⟩
  | .seReg _ _ => ⟨0xF00F#16, 0x5000#16⟩
  | .ldImm _ _ => ⟨0xF000#16, 0x6000#16⟩
  | .addImm _ _ => ⟨0xF000#16, 0x7000#16⟩
  | .ldReg _ _ => ⟨0xF00F#16, 0x8000#16⟩
  | .orReg _ _ => ⟨0xF00F#16, 0x8001#16⟩
  | .andReg _ _ => ⟨0xF00F#16, 0x8002#16⟩
  | .xorReg _ _ => ⟨0xF00F#16, 0x8003#16⟩
  | .addReg _ _ => ⟨0xF00F#16, 0x8004#16⟩
  | .subReg _ _ => ⟨0xF00F#16, 0x8005#16⟩
  | .shrReg _ _ => ⟨0xF00F#16, 0x8006#16⟩
  | .subnReg _ _ => ⟨0xF00F#16, 0x8007#16⟩
  | .shlReg _ _ => ⟨0xF00F#16, 0x800E#16⟩
  | .sneReg _ _ => ⟨0xF00F#16, 0x9000#16⟩
  | .ldI _ => ⟨0xF000#16, 0xA000#16⟩
  | .jpV0 _ => ⟨0xF000#16, 0xB000#16⟩
  | .rnd _ _ => ⟨0xF000#16, 0xC000#16⟩
  | .drw _ _ _ => ⟨0xF000#16, 0xD000#16⟩
  | .skp _ => ⟨0xF0FF#16, 0xE09E#16⟩
  | .sknp _ => ⟨0xF0FF#16, 0xE0A1#16⟩
  | .ldVxDT _ => ⟨0xF0FF#16, 0xF007#16⟩
  | .ldVxK _ => ⟨0xF0FF#16, 0xF00A#16⟩
  | .ldDTVx _ => ⟨0xF0FF#16, 0xF015#16⟩
  | .ldSTVx _ => ⟨0xF0FF#16, 0xF018#16⟩
  | .addIVx _ => ⟨0xF0FF#16, 0xF01E#16⟩
  | .ldFVx _ => ⟨0xF0FF#16, 0xF029#16⟩
  | .ldBVx _ => ⟨0xF0FF#16, 0xF033#16⟩
  | .storeRegs _ => ⟨0xF0FF#16, 0xF055#16⟩
  | .loadRegs _ => ⟨0xF0FF#16, 0xF065#16⟩

/-- A word matches a row (R81). -/
def OpcodeRow.covers (r : OpcodeRow) (w : Word) : Bool := (w &&& r.mask) == r.bits

/-- The invariants of R37 that the types do not carry, with the canonical form of memory: `I < 4096`, `pc <= 0x10FE`, and
every stack entry in use at most 0x1000. -/
def Inv (s : State) : Prop :=
  s.mem.wf = true ∧ s.I.toNat < 4096 ∧ s.pc.toNat ≤ 0x10FE ∧
    ∀ k : Fin 16, k.val < s.sp.val → (s.stackAt k).toNat ≤ 0x1000

end Sys2Proof.Machine
end

