-- ==== Sys2Proof/Certificates/Slice0/Obligations.lean ====
section
/-! DEFINITION. The statements for the provers: what spec/ says the machine does, over all states and operands. Each
docstring says the statement in words, and what it rests on. -/

open Sys2Proof Sys2Proof.Machine

/-- O1. For every instruction i, with every register number and immediate its fields admit, decoding its word gives i,
and decoding its two bytes in memory order followed by any bytes gives i and those bytes. Rests on spec/
30_encoding.md section 2; 30_encoding.md section 3; 30_encoding.md section 4. -/
def Obligations.DecodeOfEncodeIsTheInstruction : Prop :=
  ∀ i : Instr, decodeWord (encode i) = .ok i ∧
    ∀ rest : List Byte, decode (encodeBytes i ++ rest) = .ok (i, rest)

/-- O2. For every 16-bit word w and instruction i, if w decodes to i then encoding i gives w: no bit of a legal word
is dropped, so no two words stand for one instruction. Rests on spec/ 30_encoding.md section 3; 30_encoding.md section
4. -/
def Obligations.EncodeOfDecodeIsTheWord : Prop :=
  ∀ (w : Word) (i : Instr), decodeWord w = .ok i → encode i = w

/-- O3. For every word w and instruction i of the opcode table: w AND mask = match for i's row iff w decodes to some
instruction of that row (every fixed digit is checked, the spec's decision D3). Hence no word matches two rows. Rests
on spec/ 30_encoding.md section 3, decision D3; 30_encoding.md section 4. -/
def Obligations.DecodeSelectsTheMatchingRow : Prop :=
  ∀ (w : Word) (i : Instr),
    (opcodeRow i).covers w = true ↔ ∃ j, decodeWord w = .ok j ∧ opcodeRow j = opcodeRow i

/-- O4. A word is refused exactly when it lies in one of the listed sets (0nnn except 00E0 and 00EE; 5xyN and 9xyN
with N nonzero; 8xyN with N in 8 to D or F; ExNN and FxNN with another low byte), and it is refused as unknown under
its own value. The legal instructions' digits are all checked by the spec's decision D3. Rests on spec/ 30_encoding.md
section 3, decisions D2 and D3. -/
def Obligations.IllegalWordsAreUnknown : Prop :=
  ∀ w : Word,
    (decodeWord w = .error (.unknown w) ↔
      (w.toNat / 4096 = 0x0 ∧ w.toNat ≠ 0x00E0 ∧ w.toNat ≠ 0x00EE) ∨
      ((w.toNat / 4096 = 0x5 ∨ w.toNat / 4096 = 0x9) ∧ w.toNat % 16 ≠ 0) ∨
      (w.toNat / 4096 = 0x8 ∧ w.toNat % 16 ∈ [0x8, 0x9, 0xA, 0xB, 0xC, 0xD, 0xF]) ∨
      (w.toNat / 4096 = 0xE ∧ w.toNat % 256 ∉ [0x9E, 0xA1]) ∨
      (w.toNat / 4096 = 0xF ∧ w.toNat % 256 ∉ [0x07, 0x0A, 0x15, 0x18, 0x1E, 0x29, 0x33, 0x55, 0x65])) ∧
    ∀ e, decodeWord w = .error e → e = .unknown w

/-- O5. The words 00E0, 00EE, 1234, 8AB4, D12F, C7F0, E59E, FA65, 5AB0 decode to the instruction and fields that
vectors TE1 to TE9 give, and 5AB1 is unknown (TE10). Rests on spec/ 95_test_vectors.md vectors TE1 to TE10. -/
def Obligations.SpecExampleWordsDecode : Prop :=
  decodeWord 0x00E0#16 = .ok .cls ∧ decodeWord 0x00EE#16 = .ok .ret ∧
    decodeWord 0x1234#16 = .ok (.jp 0x234#12) ∧ decodeWord 0x8AB4#16 = .ok (.addReg 10 11) ∧
    decodeWord 0xD12F#16 = .ok (.drw 1 2 0xF#4) ∧ decodeWord 0xC7F0#16 = .ok (.rnd 7 0xF0#8) ∧
    decodeWord 0xE59E#16 = .ok (.skp 5) ∧ decodeWord 0xFA65#16 = .ok (.loadRegs 10) ∧
    decodeWord 0x5AB0#16 = .ok (.seReg 10 11) ∧ decodeWord 0x5AB1#16 = .error (.unknown 0x5AB1#16)

/-- O6. When the core runs, both bytes at pc are in memory and they decode to i, the step is exec of i on the state with
current_opcode the word fetched and pc advanced by 2; if that answers a next state t, the step answers t itself when t
is halted (a fault was raised: no draw flag and no tick, the spec's decision D10, log entry 15), and otherwise t with
the draw flag telling whether the display differs from the step's start (the spec's decision D11, log entry 13) and
each timer down by one while nonzero. Rests on spec/ 40_cycle.md section 1, decisions D10 and D11. -/
def Obligations.StepRunsTheDecodedInstruction : Prop :=
  ∀ (s : State) (i : Instr), Fetches s i →
    step s =
      match exec i { s with
          currentOpcode := wordOfBytes (s.byteAt s.pc.toNat) (s.byteAt (s.pc.toNat + 1)), pc := s.pc + 2#16 } with
      | .next t =>
        .next (if t.halted then t
          else { t with
            drawFlag := decide (t.px ≠ s.px)
            DT := BitVec.ofNat 8 (t.DT.toNat - 1)
            ST := BitVec.ofNat 8 (t.ST.toNat - 1) })
      | .fault f => .fault f
      | .refused r => .refused r

/-- O7. For every running core: if pc + 1 >= 4096 the step raises OutOfBoundsFetch with addr pc and fetches nothing
(current_opcode is unchanged); otherwise the step answers a next state whose current_opcode is mem[pc] * 256 + mem[pc
+ 1], whatever the parity of pc. Rules R91, R55. -/
def Obligations.FetchReadsTwoBytesBigEndian : Prop :=
  ∀ s : State, s.halted = false →
    (4096 ≤ s.pc.toNat + 1 →
      ∃ t, step s = .next t ∧ t.fault.cause = some .outOfBoundsFetch ∧ t.fault.addr = s.pc ∧
        t.currentOpcode = s.currentOpcode) ∧
    (s.pc.toNat + 1 < 4096 →
      ∃ t, step s = .next t ∧
        t.currentOpcode.toNat = (s.byteAt s.pc.toNat).toNat * 256 + (s.byteAt (s.pc.toNat + 1)).toNat)

/-- O8. For every state s there is a state t with step s = next t. The four faults of the spec are taken as next
states with the fault record written (log entry 3: the model's form of the halt). Rests on spec/ 40_cycle.md section
1; 60_exceptions.md section 1. -/
def Obligations.StepAnswersANextStateFromEveryState : Prop :=
  ∀ s : State, ∃ t, step s = .next t

/-- O9. From a state whose fault record holds a cause, every number of steps leaves exactly that state: only a reset
leaves the halt (the spec's decision D23). Rests on spec/ 40_cycle.md section 1, decision D23; 60_exceptions.md
section 4. -/
def Obligations.HaltedCoreNeverMoves : Prop :=
  ∀ (k : Nat) (s : State), s.halted = true → Host.Core.run Sys2Proof.core k s = .next s

/-- O10. For every k and s, the k-step run from s raises no fault at any of its steps iff it ends in a next state that is
not halted: a fault is never hidden by a later step (a run ends after the step count k, the model's choice, log entry
25). Rests on spec/ 60_exceptions.md section 4. -/
def Obligations.SafeRunIsARunThatEndsUnhalted : Prop :=
  ∀ (k : Nat) (s : State),
    runsSafely k s = true ↔ ∃ t, Host.Core.run Sys2Proof.core k s = .next t ∧ t.halted = false

/-- O11. For every running core, the step halts the core exactly when the table of causes gives a fault:
OutOfBoundsFetch when pc + 1 >= 4096, else UnknownOpcode for an unknown word under STRICT_DECODE, else StackOverflow
for CALL with sp = 16, else StackUnderflow for RET with sp = 0. The record then holds the cause, the word (0 for
OutOfBoundsFetch) and the old pc; nothing else changes but current_opcode and pc + 2 for the last three (the spec's
decision D10), so no timer ticks. Otherwise the step leaves the record as it was. Rests on spec/ 60_exceptions.md
section 1; 60_exceptions.md section 3; 40_cycle.md section 1, rule 97. -/
def Obligations.StepRaisesExactlyTheTabledFault : Prop :=
  ∀ s : State, s.halted = false → ∃ t, step s = .next t ∧
    match raisedFault s with
    | none => t.fault = s.fault ∧ t.halted = false
    | some .outOfBoundsFetch => t = { s with fault := ⟨some .outOfBoundsFetch, 0x0000#16, s.pc⟩ }
    | some f =>
      t = { s with
        currentOpcode := wordOfBytes (s.byteAt s.pc.toNat) (s.byteAt (s.pc.toNat + 1))
        pc := s.pc + 2#16
        fault := ⟨some f, wordOfBytes (s.byteAt s.pc.toNat) (s.byteAt (s.pc.toNat + 1)), s.pc⟩ }

/-- O12. For a running lenient core whose two bytes at pc decode to Unknown, the step answers the same state with
current_opcode the word, pc + 2, draw_flag 0 and each timer down by one while nonzero (the spec's decision D26);
nothing else changes. Rests on spec/ 30_encoding.md section 3, decision D26; 40_cycle.md section 1. -/
def Obligations.LenientUnknownWordIsANoOp : Prop :=
  ∀ s : State, s.halted = false → s.pc.toNat + 1 < 4096 → s.cfg.strictDecode = false →
    (∀ i, ¬ Fetches s i) →
    step s = .next { s with
      currentOpcode := wordOfBytes (s.byteAt s.pc.toNat) (s.byteAt (s.pc.toNat + 1))
      pc := s.pc + 2#16
      drawFlag := false
      DT := BitVec.ofNat 8 (s.DT.toNat - 1)
      ST := BitVec.ofNat 8 (s.ST.toNat - 1) }

/-- O13. For every running core whose step leaves it running: DT ends one below (and not below zero) the value V[x] if
the instruction is Fx15, else the value DT had; ST likewise with Fx18. This includes the waiting Fx0A and the lenient
no-op (the spec's decision D18). Rests on spec/ 40_cycle.md section 1, decision D18; 45_timer_keypad.md section 2. -/
def Obligations.TimersTickOnceInEveryCompletedStep : Prop :=
  ∀ s t : State, s.halted = false → step s = .next t → t.halted = false →
    t.DT.toNat = (match fetchedInstr s with | some (.ldDTVx x) => s.reg x | _ => s.DT).toNat - 1 ∧
    t.ST.toNat = (match fetchedInstr s with | some (.ldSTVx x) => s.reg x | _ => s.ST).toNat - 1

/-- O14. For every running core whose step leaves it running: draw_flag is 1 iff some pixel differs from its value
before the step (the spec's decision D11), and if it is 1 the instruction fetched was 00E0 or Dxyn. Rests on spec/
40_cycle.md section 1, decision D11; 10_state.md section 10. -/
def Obligations.DrawFlagTellsWhetherAPixelChanged : Prop :=
  ∀ s t : State, s.halted = false → step s = .next t → t.halted = false →
    (t.drawFlag = true ↔ ∃ r c, pixel t.px r c ≠ pixel s.px r c) ∧
    (t.drawFlag = true → fetchedInstr s = some .cls ∨ ∃ x y n, fetchedInstr s = some (.drw x y n))

/-- O15. For every state that fetches an instruction whose execute phase does not write the program counter (neither a
jump, call, return, skip nor Fx0A), the step answers a running next state with pc = pc0 + 2. Rests on spec/
40_cycle.md section 1; 10_state.md section 4. -/
def Obligations.PlainInstructionsAdvanceByTwo : Prop :=
  ∀ (s : State) (i : Instr), Fetches s i → Element.programCounter ∉ executeWrites i →
    ∃ t, step s = .next t ∧ t.pc.toNat = s.pc.toNat + 2 ∧ t.halted = false

/-- O16. For every state that fetches one of the six skip instructions with condition c (key numbers taken mod 16, the
spec's decision D6), the step answers a running next state with pc = pc0 + 4 if c holds, else pc0 + 2, whatever word
is skipped. Rests on spec/ 40_cycle.md section 1; 41_control_flow.md section 1; 45_timer_keypad.md section 1, decision
D6. -/
def Obligations.TakenSkipAdvancesByFour : Prop :=
  ∀ (s : State) (i : Instr) (c : Bool), Fetches s i → skipCondition s i = some c →
    ∃ t, step s = .next t ∧ t.pc.toNat = (if c then s.pc.toNat + 4 else s.pc.toNat + 2) ∧ t.halted = false

/-- O17. For every instruction, state and next state of exec, every element of the state outside those the instruction's
own rule and the rules of the elements give it to write is unchanged, memory byte by byte; the fault record is among
them except for RET and CALL. That current_opcode, the draw flag and the keypad are not written in execute is the
ownership table's; that an instruction has no effect its rule does not list is the spec's decision D27 (log entry 20).
Also the static configuration (it stands in the state by the model's choice, log entry 1) and, but for Cxnn, the
model's own draw counter (log entry 2) are unchanged. Rests on spec/ 10_state.md section 1; 10_state.md section 3;
10_state.md section 4; 10_state.md section 5; 10_state.md section 6; 10_state.md section 14; 41_control_flow.md
section 2; 42_alu.md section 2; 43_index_memory.md section 2; 44_display.md section 2; 45_timer_keypad.md section 2;
60_exceptions.md section 1. -/
def Obligations.ExecuteChangesOnlyItsElements : Prop :=
  ∀ (i : Instr) (s t : State), exec i s = .next t → OnlyChanges (executeWrites i) s t

/-- O18. For every instruction, state and next state of exec, a register that the tables of register and flag writes
do not give the instruction keeps its value; so VF changes only by the six flag writers or as an explicit destination.
Rests on spec/ 10_state.md section 1; 10_state.md section 2. -/
def Obligations.ExecuteWritesOnlyItsRegisters : Prop :=
  ∀ (i : Instr) (s t : State), exec i s = .next t → ∀ r, writesReg i r = false → t.reg r = s.reg r

/-- O19. For every state, whatever a step answers as next state has the keypad and the configuration of the state before.
That the configuration, a static input, stands in the state is the model's choice (log entry 1). Rests on spec/
10_state.md section 7; 10_state.md section 14; 10_state.md section 17. -/
def Obligations.StepNeverWritesKeypadOrConfiguration : Prop :=
  ∀ s t : State, step s = .next t → t.key = s.key ∧ t.cfg = s.cfg

/-- O20. If a byte of memory differs after a step, the instruction fetched was Fx33 and the byte is one of its three,
or Fx55 and the byte is one of its x + 1; effective addresses wrap modulo 4096 (the spec's decision D5). Rests on
spec/ 10_state.md section 14; 43_index_memory.md section 1. -/
def Obligations.OnlyBcdAndRegisterStoreChangeMemory : Prop :=
  ∀ (s t : State) (a : Nat), step s = .next t → t.byteAt a ≠ s.byteAt a →
    (∃ x, fetchedInstr s = some (.ldBVx x) ∧ ∃ k < 3, a % 4096 = s.ea k) ∨
    (∃ x, fetchedInstr s = some (.storeRegs x) ∧ ∃ k ≤ x.val, a % 4096 = s.ea k)

/-- O21. For every step that answers a next state, the count of draws goes up by one if the core runs and fetches
Cxnn, and is unchanged otherwise. The counter is the model's own (log entry 2). Rests on spec/ 42_alu.md section 2;
00_scope.md section 3. -/
def Obligations.OneDrawPerExecutedRandom : Prop :=
  ∀ s t : State, step s = .next t →
    ((s.halted = false ∧ ∃ x nn, fetchedInstr s = some (.rnd x nn)) → t.draws = s.draws + 1) ∧
    (¬ (s.halted = false ∧ ∃ x nn, fetchedInstr s = some (.rnd x nn)) → t.draws = s.draws)

/-- O22. Two states that differ only in ST, current_opcode and draw_flag have next states that differ at most in ST,
current_opcode and draw_flag: no instruction reads them. The two steps take one and the same random draw, since the
states have equal draw counters (the model's choice, log entry 2): for Cxnn nothing is said of two different draws.
Rests on spec/ 10_state.md section 6; 10_state.md section 9; 10_state.md section 10; 42_alu.md section 2. -/
def Obligations.OutputStateIsNeverRead : Prop :=
  ∀ (s t : State) (st : Byte) (w : Word) (d : Bool), step s = .next t →
    ∃ t', step { s with ST := st, currentOpcode := w, drawFlag := d } = .next t' ∧
      t' = { t with ST := t'.ST, currentOpcode := t'.currentOpcode, drawFlag := t'.drawFlag }

/-- O23. With sp > 0, exec of RET answers a next state with sp one less and pc the old entry sp - 1; every stack entry
keeps its value and nothing else changes. With sp = 0 it takes StackUnderflow with the word and pc0 = pc - 2 recorded,
and nothing else changes. Rules R100. -/
def Obligations.ReturnPopsIntoPc : Prop :=
  ∀ s : State,
    (∀ k : Fin 16, s.sp.val = k.val + 1 →
      ∃ t, exec .ret s = .next t ∧ t.sp.val = k.val ∧ t.pc = s.stackAt k ∧ t.stack = s.stack ∧
        OnlyChanges [.programCounter, .callStack] s t) ∧
    (s.sp.val = 0 →
      ∃ t, exec .ret s = .next t ∧ t.fault = ⟨some .stackUnderflow, s.currentOpcode, s.pc - 2#16⟩ ∧
        OnlyChanges [.faultRecord] s t)

/-- O24. With sp < 16, exec of CALL nnn answers a next state with entry sp the advanced pc, sp one more, pc = nnn,
every other entry kept and nothing else changed. With sp = 16 it takes StackOverflow with the word and pc0 = pc - 2
recorded, no entry written, and nothing else changes. Rules R102. -/
def Obligations.CallPushesAndJumps : Prop :=
  ∀ (nnn : Addr) (s : State),
    (∀ k : Fin 16, s.sp.val = k.val →
      ∃ t, exec (.call nnn) s = .next t ∧ t.sp.val = k.val + 1 ∧ t.pc.toNat = nnn.toNat ∧ t.stackAt k = s.pc ∧
        (∀ j, j ≠ k → t.stackAt j = s.stackAt j) ∧ OnlyChanges [.programCounter, .callStack] s t) ∧
    (s.sp.val = 16 →
      ∃ t, exec (.call nnn) s = .next t ∧ t.fault = ⟨some .stackOverflow, s.currentOpcode, s.pc - 2#16⟩ ∧
        OnlyChanges [.faultRecord] s t)

/-- O25. If CALL nnn is executed with sp < 16, then RET executed in any state whose call stack is as the call left it
answers a next state with pc the address after the call and sp as before the call (source property S5). Rests on spec/
95_test_vectors.md example S5; 41_control_flow.md section 2. -/
def Obligations.ReturnAfterCallComesBack : Prop :=
  ∀ (nnn : Addr) (s t u : State), s.sp.val < 16 → exec (.call nnn) s = .next t → u.sp = t.sp → u.stack = t.stack →
    ∃ v, exec .ret u = .next v ∧ v.pc = s.pc ∧ v.sp = s.sp

/-- O26. exec of JP nnn answers a next state with pc = nnn zero-extended, for every 12-bit nnn, odd or in the reserved
region alike; nothing else changes. Rules R101. -/
def Obligations.JumpSetsPc : Prop :=
  ∀ (nnn : Addr) (s : State),
    ∃ t, exec (.jp nnn) s = .next t ∧ t.pc.toNat = nnn.toNat ∧ OnlyChanges [.programCounter] s t

/-- O27. exec of JP V0, nnn answers a next state with pc = nnn + V[0] as numbers (at most 0x10FE, no wrap, no
reduction mod 4096); nothing else changes. Rules R107. -/
def Obligations.JumpWithOffsetAddsV0 : Prop :=
  ∀ (nnn : Addr) (s : State),
    ∃ t, exec (.jpV0 nnn) s = .next t ∧ t.pc.toNat = nnn.toNat + (s.reg 0).toNat ∧ t.pc.toNat ≤ 0x10FE ∧
      OnlyChanges [.programCounter] s t

/-- O28. exec of 3xnn answers a next state with pc + 2 if V[x] = nn, else pc unchanged; 4xnn with the condition
negated; x may be 15; nothing else changes. Rules R103, R104. -/
def Obligations.ImmediateSkipsTestVx : Prop :=
  ∀ (x : Reg) (nn : Byte) (s : State),
    (∃ t, exec (.seImm x nn) s = .next t ∧ t.pc = (if s.reg x = nn then s.pc + 2#16 else s.pc) ∧
      OnlyChanges [.programCounter] s t) ∧
    (∃ t, exec (.sneImm x nn) s = .next t ∧ t.pc = (if s.reg x ≠ nn then s.pc + 2#16 else s.pc) ∧
      OnlyChanges [.programCounter] s t)

/-- O29. exec of 5xy0 answers a next state with pc + 2 if V[x] = V[y], else pc unchanged; 9xy0 with the condition
negated; so x = y always skips for 5xy0 and never for 9xy0; nothing else changes. Rules R105, R106. -/
def Obligations.RegisterSkipsCompareVxVy : Prop :=
  ∀ (x y : Reg) (s : State),
    (∃ t, exec (.seReg x y) s = .next t ∧ t.pc = (if s.reg x = s.reg y then s.pc + 2#16 else s.pc) ∧
      OnlyChanges [.programCounter] s t) ∧
    (∃ t, exec (.sneReg x y) s = .next t ∧ t.pc = (if s.reg x ≠ s.reg y then s.pc + 2#16 else s.pc) ∧
      OnlyChanges [.programCounter] s t)

/-- O30. exec of 6xnn answers a next state with V[x] = nn, and of 7xnn with V[x] = (V[x] + nn) mod 256; no other
register changes (VF neither, unless x = 15) and nothing else. Rules R110, R111. -/
def Obligations.LoadAndAddImmediate : Prop :=
  ∀ (x : Reg) (nn : Byte) (s : State),
    (∃ t, exec (.ldImm x nn) s = .next t ∧ t.reg x = nn ∧ KeepsRegsBut [x] s t ∧ OnlyChanges [.registers] s t) ∧
    (∃ t, exec (.addImm x nn) s = .next t ∧ (t.reg x).toNat = ((s.reg x).toNat + nn.toNat) % 256 ∧
      KeepsRegsBut [x] s t ∧ OnlyChanges [.registers] s t)

/-- O31. exec of 8xy0, 8xy1, 8xy2, 8xy3 answers a next state with V[x] equal to V[y], or to the bitwise OR, AND or XOR
of the old V[x] and V[y], bit for bit; no other register and nothing else changes. Rules R112, R113, R114, R115. -/
def Obligations.CopyAndLogicWriteVxOnly : Prop :=
  ∀ (x y : Reg) (s : State),
    (∃ t, exec (.ldReg x y) s = .next t ∧ t.reg x = s.reg y ∧ KeepsRegsBut [x] s t ∧ OnlyChanges [.registers] s t) ∧
    (∃ t, exec (.orReg x y) s = .next t ∧
      (∀ b < 8, (t.reg x).getLsbD b = ((s.reg x).getLsbD b || (s.reg y).getLsbD b)) ∧
      KeepsRegsBut [x] s t ∧ OnlyChanges [.registers] s t) ∧
    (∃ t, exec (.andReg x y) s = .next t ∧
      (∀ b < 8, (t.reg x).getLsbD b = ((s.reg x).getLsbD b && (s.reg y).getLsbD b)) ∧
      KeepsRegsBut [x] s t ∧ OnlyChanges [.registers] s t) ∧
    (∃ t, exec (.xorReg x y) s = .next t ∧
      (∀ b < 8, (t.reg x).getLsbD b = ((s.reg x).getLsbD b ^^ (s.reg y).getLsbD b)) ∧
      KeepsRegsBut [x] s t ∧ OnlyChanges [.registers] s t)

/-- O32. exec of 8xy4 answers a next state with V[x] = (V[x] + V[y]) mod 256 of the old values for every x and y, and
VF = 1 if the old sum exceeds 255 else 0 when x is not 15; with x = 15 the result survives in VF (the spec's decision
D4: operands latched, flag first, result second); no other register and nothing else changes. Rests on spec/ 42_alu.md
section 1, decision D4; 42_alu.md section 2. -/
def Obligations.AddSetsCarry : Prop :=
  ∀ (x y : Reg) (s : State), ∃ t, exec (.addReg x y) s = .next t ∧
    (t.reg x).toNat = ((s.reg x).toNat + (s.reg y).toNat) % 256 ∧
    (x ≠ 15 → (t.reg 15).toNat = if (s.reg x).toNat + (s.reg y).toNat > 255 then 1 else 0) ∧
    KeepsRegsBut [x, 15] s t ∧ OnlyChanges [.registers] s t

/-- O33. exec of 8xy5 answers a next state with V[x] = (V[x] - V[y]) mod 256 and VF = 1 iff the old V[x] > V[y], and
of 8xy7 with V[x] = (V[y] - V[x]) mod 256 and VF = 1 iff the old V[y] > V[x], so VF = 0 on equal operands; with x = 15
the result survives (the spec's decision D4); no other register and nothing else changes. Rests on spec/ 42_alu.md
section 1, decision D4; 42_alu.md section 2. -/
def Obligations.SubtractsSetGreaterFlag : Prop :=
  ∀ (x y : Reg) (s : State),
    (∃ t, exec (.subReg x y) s = .next t ∧
      (t.reg x).toNat = ((s.reg x).toNat + 256 - (s.reg y).toNat) % 256 ∧
      (x ≠ 15 → (t.reg 15).toNat = if (s.reg y).toNat < (s.reg x).toNat then 1 else 0) ∧
      KeepsRegsBut [x, 15] s t ∧ OnlyChanges [.registers] s t) ∧
    (∃ t, exec (.subnReg x y) s = .next t ∧
      (t.reg x).toNat = ((s.reg y).toNat + 256 - (s.reg x).toNat) % 256 ∧
      (x ≠ 15 → (t.reg 15).toNat = if (s.reg x).toNat < (s.reg y).toNat then 1 else 0) ∧
      KeepsRegsBut [x, 15] s t ∧ OnlyChanges [.registers] s t)

/-- O34. With v = V[x] or V[y] by SHIFT_SOURCE (the VY setting is the spec's decision D13): exec of 8xy6 answers a
next state with V[x] = v div 2 and VF = v mod 2, and of 8xyE with V[x] = 2v mod 256 and VF = v div 128; with x = 15
the result survives (decision D4); no other register and nothing else changes. Rests on spec/ 42_alu.md section 1,
decision D4; 42_alu.md section 2, decision D13. -/
def Obligations.ShiftsMoveOneBitIntoVF : Prop :=
  ∀ (x y : Reg) (s : State) (v : Byte),
    v = (match s.cfg.shiftSource with | .vx => s.reg x | .vy => s.reg y) →
    (∃ t, exec (.shrReg x y) s = .next t ∧ (t.reg x).toNat = v.toNat / 2 ∧
      (x ≠ 15 → (t.reg 15).toNat = v.toNat % 2) ∧ KeepsRegsBut [x, 15] s t ∧ OnlyChanges [.registers] s t) ∧
    (∃ t, exec (.shlReg x y) s = .next t ∧ (t.reg x).toNat = v.toNat * 2 % 256 ∧
      (x ≠ 15 → (t.reg 15).toNat = v.toNat / 128) ∧ KeepsRegsBut [x, 15] s t ∧ OnlyChanges [.registers] s t)

/-- O35. exec of Cxnn answers a next state with V[x] = rand8 AND nn for the next draw of the free source (the model's
Config.rand8, log entry 2), so every bit that is 0 in nn is 0 whatever the draw; one draw is consumed; no other
register and nothing else changes. Rests on spec/ 42_alu.md section 2, decision D14; 95_test_vectors.md example S7. -/
def Obligations.RandomByteIsMasked : Prop :=
  ∀ (x : Reg) (nn : Byte) (s : State), ∃ t, exec (.rnd x nn) s = .next t ∧
    t.reg x = (Config.rand8 s.draws &&& nn) ∧ (∀ b < 8, nn.getLsbD b = false → (t.reg x).getLsbD b = false) ∧
    t.draws = s.draws + 1 ∧ KeepsRegsBut [x] s t ∧ OnlyChanges [.registers, .draws] s t

/-- O36. exec of Annn answers a next state with I = nnn, and of Fx29 with I = 0x050 + V[x] * 5 from all 8 bits of V[x]
(at most 0x54B, no wrap); nothing else changes. Rules R130, R132. -/
def Obligations.IndexLoadAndGlyphAddress : Prop :=
  ∀ (nnn : Addr) (x : Reg) (s : State),
    (∃ t, exec (.ldI nnn) s = .next t ∧ t.I.toNat = nnn.toNat ∧ OnlyChanges [.index] s t) ∧
    (∃ t, exec (.ldFVx x) s = .next t ∧ t.I.toNat = 0x050 + (s.reg x).toNat * 5 ∧ OnlyChanges [.index] s t)

/-- O37. exec of Fx1E answers a next state with I = (I + V[x]) mod 4096, for every I and V[x] and x = 15 alike; no
register and nothing else changes. Rules R131. -/
def Obligations.AddToIndexWrapsAt4096 : Prop :=
  ∀ (x : Reg) (s : State),
    ∃ t, exec (.addIVx x) s = .next t ∧ t.I.toNat = (s.I.toNat + (s.reg x).toNat) % 4096 ∧ OnlyChanges [.index] s t

/-- O38. exec of Fx33 answers a next state with the bytes at (I + 0, 1, 2) mod 4096 equal to V[x] div 100, (V[x] div
10) mod 10 and V[x] mod 10; every other byte reads as before and nothing else changes. The wrap is the spec's decision
D5. Rests on spec/ 43_index_memory.md section 2; 20_memory.md section 5, decision D5. -/
def Obligations.BcdStoresThreeDigits : Prop :=
  ∀ (x : Reg) (s : State), ∃ t, exec (.ldBVx x) s = .next t ∧
    (t.byteAt (s.ea 0)).toNat = (s.reg x).toNat / 100 ∧
    (t.byteAt (s.ea 1)).toNat = (s.reg x).toNat / 10 % 10 ∧
    (t.byteAt (s.ea 2)).toNat = (s.reg x).toNat % 10 ∧
    (∀ a, (∀ k < 3, a % 4096 ≠ s.ea k) → t.byteAt a = s.byteAt a) ∧ OnlyChanges [.memory] s t

/-- O39. exec of Fx55 answers a next state in which the byte at (I + k) mod 4096 is V[k] for every k from 0 to x;
every other byte reads as before, and no register, I included, and nothing else changes. The wrap is the spec's
decision D5. Rests on spec/ 43_index_memory.md section 2; 20_memory.md section 5, decision D5. -/
def Obligations.StoreWritesRegistersFromI : Prop :=
  ∀ (x : Reg) (s : State), ∃ t, exec (.storeRegs x) s = .next t ∧
    (∀ k : Reg, k ≤ x → t.byteAt (s.ea k.val) = s.reg k) ∧
    (∀ a, (∀ k ≤ x.val, a % 4096 ≠ s.ea k) → t.byteAt a = s.byteAt a) ∧ OnlyChanges [.memory] s t

/-- O40. exec of Fx65 answers a next state in which V[k] is the byte at (I + k) mod 4096 for every k from 0 to x;
V[x+1] to V[15], memory, I and everything else are unchanged. The wrap is the spec's decision D5. Rests on spec/
43_index_memory.md section 2; 20_memory.md section 5, decision D5. -/
def Obligations.LoadReadsRegistersFromI : Prop :=
  ∀ (x : Reg) (s : State), ∃ t, exec (.loadRegs x) s = .next t ∧
    (∀ k : Reg, k ≤ x → t.reg k = s.byteAt ((s.I.toNat + k.val) % 4096)) ∧
    (∀ k : Reg, x < k → t.reg k = s.reg k) ∧ OnlyChanges [.registers] s t

/-- O41. If Fx55 is executed in s and Fx65 with the same x in any state u with the memory Fx55 left and the I of s,
then V[0] to V[x] end as they were in s, whatever u's registers held (source property S4). Rests on spec/
95_test_vectors.md example S4; 43_index_memory.md section 2. -/
def Obligations.LoadAfterStoreRestoresRegisters : Prop :=
  ∀ (x : Reg) (s t u : State), exec (.storeRegs x) s = .next t → u.mem = t.mem → u.I = s.I →
    ∃ v, exec (.loadRegs x) u = .next v ∧ ∀ k : Reg, k ≤ x → v.reg k = s.reg k

/-- O42. exec of 00E0 answers a next state with every pixel unlit and nothing else changed (VF neither); and a step
that fetches 00E0 ends with draw_flag 1 iff some pixel was lit before it (the spec's decision D11). Rests on spec/
44_display.md section 2; 40_cycle.md section 1, decision D11. -/
def Obligations.ClearUnlightsEveryPixel : Prop :=
  (∀ s : State, ∃ t, exec .cls s = .next t ∧ (∀ r c, pixel t.px r c = false) ∧ OnlyChanges [.display] s t) ∧
  ∀ s : State, Fetches s .cls →
    ∃ t, step s = .next t ∧ (t.drawFlag = true ↔ ∃ r c, pixel s.px r c = true)

/-- O43. exec of Dxyn answers a next state in which each pixel is the old one XOR whether the sprite has a 1 bit there
(origin V[x] mod 64, V[y] mod 32; rows wrap, columns past 63 drop; bit 7 leftmost: the spec's decision D21, the bit
order from its general knowledge, log entry 16), and VF is 1 iff a lit pixel was under a 1 bit, else 0; x or y may be
15 and n may be 0; no other register and nothing else changes. Rests on spec/ 44_display.md section 1, decision D21;
44_display.md section 2. -/
def Obligations.DrawXorsSpriteAndReportsCollision : Prop :=
  ∀ (x y : Reg) (n : Nibble) (s : State), ∃ t, exec (.drw x y n) s = .next t ∧
    (∀ r c, pixel t.px r c = (pixel s.px r c ^^ drwCovers s x y n r c)) ∧
    ((∃ r c, drwCovers s x y n r c = true ∧ pixel s.px r c = true) → t.reg 15 = 0x01#8) ∧
    (¬ (∃ r c, drwCovers s x y n r c = true ∧ pixel s.px r c = true) → t.reg 15 = 0x00#8) ∧
    KeepsRegsBut [15] s t ∧ OnlyChanges [.registers, .display] s t

/-- O44. If Dxyn executed in s answers t and the coordinate registers are the same in t as in s, then Dxyn executed in t
restores the display of s, and VF is 1 iff some pixel under a 1 bit of the sprite was unlit in s (so lit by the first
draw), else 0, as conflict C5 resolves the source's property S3. Which pixels are under a 1 bit, and that 0 bits and
dropped columns never collide, is the spec's decision D21, the bit order from its general knowledge (log entry 16).
Rests on spec/ 44_display.md section 1, decision D21; 44_display.md section 2; 90_conflicts.md C5. -/
def Obligations.DrawingTwiceRestoresTheDisplay : Prop :=
  ∀ (x y : Reg) (n : Nibble) (s t : State), exec (.drw x y n) s = .next t → t.reg x = s.reg x → t.reg y = s.reg y →
    ∃ u, exec (.drw x y n) t = .next u ∧ u.px = s.px ∧
      ((∃ r c, drwCovers s x y n r c = true ∧ pixel s.px r c = false) → u.reg 15 = 0x01#8) ∧
      (¬ (∃ r c, drwCovers s x y n r c = true ∧ pixel s.px r c = false) → u.reg 15 = 0x00#8)

/-- O45. exec of Fx07 answers a next state with V[x] = DT, nothing else changed; and a step that fetches Fx07 ends
with V[x] the DT of before the step and DT one less while nonzero. Rules R150. -/
def Obligations.ReadDelayTimer : Prop :=
  ∀ (x : Reg) (s : State),
    (∃ t, exec (.ldVxDT x) s = .next t ∧ t.reg x = s.DT ∧ KeepsRegsBut [x] s t ∧ OnlyChanges [.registers] s t) ∧
    (Fetches s (.ldVxDT x) → ∃ t, step s = .next t ∧ t.reg x = s.DT ∧ t.DT.toNat = s.DT.toNat - 1)

/-- O46. exec of Fx15 answers a next state with DT = V[x], and of Fx18 with ST = V[x], nothing else changed; a step
that fetches one of them ends with that timer one below V[x], or 0 if V[x] is 0 (an inference the spec marks as
derived). Rests on spec/ 45_timer_keypad.md section 2. -/
def Obligations.SetTimers : Prop :=
  ∀ (x : Reg) (s : State),
    (∃ t, exec (.ldDTVx x) s = .next t ∧ t.DT = s.reg x ∧ OnlyChanges [.delayTimer] s t) ∧
    (∃ t, exec (.ldSTVx x) s = .next t ∧ t.ST = s.reg x ∧ OnlyChanges [.soundTimer] s t) ∧
    (Fetches s (.ldDTVx x) → ∃ t, step s = .next t ∧ t.DT.toNat = (s.reg x).toNat - 1) ∧
    (Fetches s (.ldSTVx x) → ∃ t, step s = .next t ∧ t.ST.toNat = (s.reg x).toNat - 1)

/-- O47. With k the key numbered V[x] mod 16 (the spec's decision D6): exec of Ex9E answers a next state with pc + 2
if key k is pressed, else pc unchanged; ExA1 with the condition negated; nothing else changes, V[x] and the keypad
neither. Rests on spec/ 45_timer_keypad.md section 1, decision D6; 45_timer_keypad.md section 2. -/
def Obligations.KeySkipsTestTheKeypad : Prop :=
  ∀ (x : Reg) (k : Key) (s : State), k.val = (s.reg x).toNat % 16 →
    (∃ t, exec (.skp x) s = .next t ∧ t.pc = (if s.keyDown k = true then s.pc + 2#16 else s.pc) ∧
      OnlyChanges [.programCounter] s t) ∧
    (∃ t, exec (.sknp x) s = .next t ∧ t.pc = (if s.keyDown k = false then s.pc + 2#16 else s.pc) ∧
      OnlyChanges [.programCounter] s t)

/-- O48. exec of Fx0A: if key k is pressed and no lower key is, the next state has V[x] = k and nothing else changed
(level-sensitive, lowest key: the spec's decision D7); if no key is pressed, pc goes back by 2 and nothing else
changes, so a step that fetches Fx0A then ends running with its old pc and registers and its timers ticked (the spec's
decision D18). Rests on spec/ 45_timer_keypad.md section 2, decision D7; 40_cycle.md section 1, decision D18. -/
def Obligations.WaitForKeyTakesTheLowestOrRepeats : Prop :=
  ∀ (x : Reg) (s : State),
    (∀ k : Key, s.keyDown k = true → (∀ j < k, s.keyDown j = false) →
      ∃ t, exec (.ldVxK x) s = .next t ∧ (t.reg x).toNat = k.val ∧ KeepsRegsBut [x] s t ∧
        OnlyChanges [.registers] s t) ∧
    ((∀ k, s.keyDown k = false) →
      (∃ t, exec (.ldVxK x) s = .next t ∧ t.pc = s.pc - 2#16 ∧ OnlyChanges [.programCounter] s t) ∧
      (Fetches s (.ldVxK x) →
        ∃ t, step s = .next t ∧ t.pc = s.pc ∧ t.halted = false ∧ t.DT.toNat = s.DT.toNat - 1 ∧
          t.ST.toNat = s.ST.toNat - 1 ∧
          OnlyChanges [.currentOpcode, .drawFlag, .delayTimer, .soundTimer] s t))

/-- O49. For a step that fetches CALL with sp = 16, the next state is halted with cause StackOverflow and the call stack
is unchanged; with sp < 16 the step leaves the core running. The cause's number is FaultCodesFollowTheTable's. Rules
R164. -/
def Obligations.OverflowPushesNothing : Prop :=
  ∀ (nnn : Addr) (s : State), Fetches s (.call nnn) → ∃ t, step s = .next t ∧
    (s.sp.val = 16 → t.halted = true ∧ t.fault.cause = some .stackOverflow ∧ t.sp = s.sp ∧ t.stack = s.stack) ∧
    (s.sp.val < 16 → t.halted = false)

/-- O50. For a step that fetches RET with sp = 0, the next state is halted with cause StackUnderflow and the call stack is
unchanged; with sp > 0 the step leaves the core running. The cause's number is FaultCodesFollowTheTable's. Rules R165.
-/
def Obligations.UnderflowPopsNothing : Prop :=
  ∀ s : State, Fetches s .ret → ∃ t, step s = .next t ∧
    (s.sp.val = 0 → t.halted = true ∧ t.fault.cause = some .stackUnderflow ∧ t.sp = s.sp ∧ t.stack = s.stack) ∧
    (0 < s.sp.val → t.halted = false)

/-- O51. For every state, the host's reset leaves V, I, sp, the stack, DT, ST, the keypad, the display, current_opcode,
draw_flag and the fault record zero, pc = 0x0200, byte k of the configured FONT_TABLE at 0x050 + k for k below 80, and
every other byte of memory zero; the core is not halted. Rules R180. -/
def Obligations.ResetSetsEveryElement : Prop :=
  ∀ s : State,
    (∀ r, (hostReset s).reg r = 0x00#8) ∧ (hostReset s).I = 0x0000#16 ∧ (hostReset s).pc = 0x0200#16 ∧
    (hostReset s).sp.val = 0 ∧ (∀ k, (hostReset s).stackAt k = 0x0000#16) ∧ (hostReset s).DT = 0x00#8 ∧
    (hostReset s).ST = 0x00#8 ∧ (∀ k, (hostReset s).keyDown k = false) ∧
    (∀ r c, pixel (hostReset s).px r c = false) ∧ (hostReset s).currentOpcode = 0x0000#16 ∧
    (hostReset s).drawFlag = false ∧ (hostReset s).fault = ⟨none, 0x0000#16, 0x0000#16⟩ ∧
    (hostReset s).halted = false ∧
    (∀ k (h : k < 80), (hostReset s).byteAt (0x050 + k) = s.cfg.fontTable[k]) ∧
    (∀ a < 4096, a < 0x050 ∨ 0x0A0 ≤ a → (hostReset s).byteAt a = 0x00#8)

/-- O52. State.reset has every general register, I, sp, every stack entry, both timers, every key, every pixel,
current_opcode, the draw flag and the fault record zero, pc = 0x0200, is not halted, has the default configuration,
byte k of the default font at 0x050 + k for k below 80 (glyph A's bytes F0 90 F0 90 90 at 0x082), every other byte of
memory zero, and no draw taken; and a reset of any state with the default configuration and no draws taken is
State.reset (the default font's bytes other than glyph A's are the spec's general knowledge, decision D8, log entry 4;
the draw counter and its value 0 are the model's choice, log entry 2). Rests on spec/ 10_state.md section 15;
10_state.md section 12, decision D8; 00_scope.md section 3. -/
def Obligations.ResetStateIsTheTable : Prop :=
  ((∀ r, State.reset.reg r = 0x00#8) ∧ State.reset.I = 0x0000#16 ∧ State.reset.pc = 0x0200#16 ∧
    State.reset.sp.val = 0 ∧ (∀ k, State.reset.stackAt k = 0x0000#16) ∧ State.reset.DT = 0x00#8 ∧
    State.reset.ST = 0x00#8 ∧ (∀ k, State.reset.keyDown k = false) ∧ (∀ r c, pixel State.reset.px r c = false) ∧
    State.reset.currentOpcode = 0x0000#16 ∧ State.reset.drawFlag = false ∧
    State.reset.fault = ⟨none, 0x0000#16, 0x0000#16⟩ ∧ State.reset.halted = false ∧
    State.reset.cfg = Config.default ∧ State.reset.draws = 0) ∧
  ((∀ k (h : k < 80), State.reset.byteAt (0x050 + k) = defaultFont[k]) ∧
    (List.range 5).map (fun k => State.reset.byteAt (0x082 + k)) = [0xF0#8, 0x90#8, 0xF0#8, 0x90#8, 0x90#8] ∧
    ∀ a < 4096, a < 0x050 ∨ 0x0A0 ≤ a → State.reset.byteAt a = 0x00#8) ∧
  ∀ s : State, s.cfg = Config.default → s.draws = 0 → hostReset s = State.reset

/-- O53. For every image and state: with more than 3584 bytes the load returns ProgramTooLarge and no state; otherwise
it returns a state with byte k of the image at 0x200 + k, every other byte of memory as before and nothing else
changed. Rules R182. -/
def Obligations.LoadCopiesTheImageOrNothing : Prop :=
  ∀ (image : List Byte) (s : State),
    (3584 < image.length → hostLoad image s = .error .programTooLarge) ∧
    (image.length ≤ 3584 → ∃ t, hostLoad image s = .ok t ∧
      (∀ k (h : k < image.length), t.byteAt (0x200 + k) = image[k]) ∧
      (∀ a < 4096, a < 0x200 ∨ 0x200 + image.length ≤ a → t.byteAt a = s.byteAt a) ∧
      OnlyChanges [.memory] s t)

/-- O54. For every state that meets the invariant (memory in the model's canonical form, I below 4096, pc at most
0x10FE, every stack entry below sp at most 0x1000) and every next state of a step from it, the next state meets it.
The bounds are those the spec derives by induction over all instructions. Rests on spec/ 10_state.md section 16. -/
def Obligations.EveryStepKeepsTheInvariant : Prop :=
  ∀ s t : State, Inv s → step s = .next t → Inv t

/-- O55. State.reset has memory in canonical form, I below 4096, pc at most 0x10FE and no stack entry in use. Rests on
spec/ 10_state.md section 15; 10_state.md section 16. -/
def Obligations.InvariantHoldsAtReset : Prop :=
  Inv State.reset

/-- O56. A host reset of any state meets the invariant; a load that succeeds and a keypad write keep it. Rests on
spec/ 10_state.md section 16; 70_reset_and_hazards.md section 3. -/
def Obligations.HostMovesKeepTheInvariant : Prop :=
  (∀ s : State, Inv (hostReset s)) ∧
  (∀ (image : List Byte) (s t : State), Inv s → hostLoad image s = .ok t → Inv t) ∧
  ∀ (keys : Vector Bool 16) (s : State), Inv s → Inv (hostSetKeys keys s)

/-- O57. For every running core, the code of the cause after the step is 1 for OutOfBoundsFetch, 2 for UnknownOpcode, 3
for StackOverflow, 4 for StackUnderflow, as the table of causes gives the step's fault, and 0 where it gives none. The
numbers are the spec's own decision D9; the model holds names and computes the numbers (its choice, log entry 21).
Rests on spec/ 60_exceptions.md section 1, decision D9; 10_state.md section 11. -/
def Obligations.FaultCodesFollowTheTable : Prop :=
  ∀ s : State, s.halted = false → ∃ t, step s = .next t ∧
    faultCode t.fault.cause =
      match raisedFault s with
      | none => 0
      | some .outOfBoundsFetch => 1
      | some .unknownOpcode => 2
      | some .stackOverflow => 3
      | some .stackUnderflow => 4

/-- O58. A run of host moves on a core never reset is refused unless its first move is a reset; and after a load that
answered ok, or a step, every run of further moves without a reset leaves a session in which a load is refused. The
order is the spec's (its decisions D16 and D17); the form, sessions and refusals, is the model's choice (log entries 6
and 7). Rests on spec/ 70_reset_and_hazards.md section 1, decision D16; 70_reset_and_hazards.md section 3, decision
D17. -/
def Obligations.HostMovesFollowTheBootOrder : Prop :=
  (∀ (cfg : Config) (m : HostMove) (ms : List HostMove), m ≠ .reset →
    Session.run (m :: ms) (.created cfg) = .refused .notReset) ∧
  ∀ (w v z : Session) (m : HostMove) (ms : List HostMove) (image : List Byte),
    (m = .step ∨ ∃ first, m = .load first) → w.move m = .next (v, none) →
    HostMove.reset ∉ ms → Session.run ms v = .next z → z.move (.load image) = .refused .loadNotAllowed

/-- O59. For every configuration and image of at most 3584 bytes, reset and load go through and leave the reset state with
the image from 0x200 upwards, nothing else changed, pc = 0x0200 and no halt; a step then goes through and, for an
image of at least 2 bytes, fetches its first two bytes, the first the more significant. A longer image leaves the
reset state, still without a program, and answers ProgramTooLarge. A step after the reset alone fetches 0x0000, which
is a fault in strict mode and none in lenient mode. The order is the spec's decision D17 (the session is the model's
form, log entries 5 and 6). Rests on spec/ 70_reset_and_hazards.md section 2; 70_reset_and_hazards.md section 3,
decision D17; 95_test_vectors.md vectors TR2 to TR5. -/
def Obligations.BootSequenceStartsTheProgram : Prop :=
  ∀ (cfg : Config) (image : List Byte),
    (image.length ≤ 3584 → ∃ s t,
      Session.run [.reset, .load image] (.created cfg) = .next (.up .loaded s) ∧
      OnlyChanges [.memory] (firstReset cfg) s ∧ s.pc = 0x0200#16 ∧ s.halted = false ∧
      (∀ k (h : k < image.length), s.byteAt (0x200 + k) = image[k]) ∧
      (∀ a < 4096, a < 0x200 ∨ 0x200 + image.length ≤ a → s.byteAt a = (firstReset cfg).byteAt a) ∧
      Session.run [.reset, .load image, .step] (.created cfg) = .next (.up .stepped t) ∧
      ∀ h : 2 ≤ image.length, t.currentOpcode.toNat = image[0].toNat * 256 + image[1].toNat) ∧
    (3584 < image.length →
      Session.run [.reset, .load image] (.created cfg) = .next (.up .fresh (firstReset cfg)) ∧
      (Session.up .fresh (firstReset cfg)).move (.load image) =
        .next (.up .fresh (firstReset cfg), some .programTooLarge)) ∧
    ∃ t, Session.run [.reset, .step] (.created cfg) = .next (.up .stepped t) ∧ t.currentOpcode = 0x0000#16 ∧
      t.fault = (if cfg.strictDecode then ⟨some .unknownOpcode, 0x0000#16, 0x0200#16⟩ else ⟨none, 0x0000#16, 0x0000#16⟩)

/-- O60. For every configuration and every list of host moves (resets, loads of any images, steps, keypad writes) that
goes through from a core never reset, the state it leaves meets the invariant (memory in the model's canonical form, I
below 4096, pc at most 0x10FE, every stack entry below sp at most 0x1000) and has that configuration; and a reset of
any state keeps its configuration. That the configuration stands in the state and no move changes it is the model's
choice after the spec's static inputs (log entry 1). Rests on spec/ 10_state.md section 16; 10_state.md section 17;
70_reset_and_hazards.md section 3. -/
def Obligations.EveryHostRunKeepsInvariantAndConfiguration : Prop :=
  (∀ (cfg : Config) (ms : List HostMove) (p : BootPhase) (s : State),
    Session.run ms (.created cfg) = .next (.up p s) → Inv s ∧ s.cfg = cfg) ∧
  ∀ s : State, (hostReset s).cfg = s.cfg
end

