-- ==== Sys2Proof/Laws/Decode.lean ====
section
/-! SUPPORT. The fields of the words the formats build (spec/30_encoding.md R71, R72), the words their fields rebuild, the
bytes of a word (R52), and which rows of the opcode table a format's words match (R81). -/

namespace Sys2Proof

@[simp] theorem toFin_regBits (r : Reg) : (regBits r).toFin = r := rfl

/-! ## Format A -/

@[simp] theorem opField_formatA (op : Nibble) (nnn : Addr) : opField (formatA op nnn) = op :=
  BitVec.extractLsb'_append_eq_left

@[simp] theorem nnnField_formatA (op : Nibble) (nnn : Addr) : nnnField (formatA op nnn) = nnn :=
  BitVec.extractLsb'_append_eq_right

theorem formatA_fields (w : Word) : formatA (opField w) (nnnField w) = w := by
  have h := BitVec.extractLsb'_append_extractLsb'_eq_extractLsb' (x := w) (start₁ := 0) (len₁ := 12) (start₂ := 12)
    (len₂ := 4) rfl
  exact h.trans BitVec.extractLsb'_eq_self

/-! ## Formats XI and X -/

@[simp] theorem opField_formatXI (op : Nibble) (x : Reg) (nn : Byte) : opField (formatXI op x nn) = op :=
  BitVec.extractLsb'_append_eq_left

@[simp] theorem xField_formatXI (op : Nibble) (x : Reg) (nn : Byte) : xField (formatXI op x nn) = x := by
  have h : (formatXI op x nn).extractLsb' 8 4 = regBits x :=
    (BitVec.extractLsb'_append_eq_of_add_le (by decide)).trans BitVec.extractLsb'_append_eq_left
  rw [xField, h, toFin_regBits]

@[simp] theorem nnField_formatXI (op : Nibble) (x : Reg) (nn : Byte) : nnField (formatXI op x nn) = nn :=
  (BitVec.extractLsb'_append_eq_of_add_le (by decide)).trans BitVec.extractLsb'_append_eq_right

theorem formatXI_fields (w : Word) : formatXI (opField w) (xField w) (nnField w) = w := by
  have h : regBits (xField w) ++ nnField w = nnnField w :=
    BitVec.extractLsb'_append_extractLsb'_eq_extractLsb' (x := w) (start₁ := 0) (len₁ := 8) (start₂ := 8) (len₂ := 4) rfl
  rw [formatXI, h]
  exact formatA_fields w

/-! ## Formats XYN and XY -/

@[simp] theorem opField_formatXYN (op : Nibble) (x y : Reg) (n : Nibble) : opField (formatXYN op x y n) = op :=
  BitVec.extractLsb'_append_eq_left

@[simp] theorem xField_formatXYN (op : Nibble) (x y : Reg) (n : Nibble) : xField (formatXYN op x y n) = x := by
  have h : (formatXYN op x y n).extractLsb' 8 4 = regBits x :=
    (BitVec.extractLsb'_append_eq_of_add_le (by decide)).trans BitVec.extractLsb'_append_eq_left
  rw [xField, h, toFin_regBits]

@[simp] theorem yField_formatXYN (op : Nibble) (x y : Reg) (n : Nibble) : yField (formatXYN op x y n) = y := by
  have h : (formatXYN op x y n).extractLsb' 4 4 = regBits y :=
    (BitVec.extractLsb'_append_eq_of_add_le (by decide)).trans
      ((BitVec.extractLsb'_append_eq_of_add_le (by decide)).trans BitVec.extractLsb'_append_eq_left)
  rw [yField, h, toFin_regBits]

@[simp] theorem nField_formatXYN (op : Nibble) (x y : Reg) (n : Nibble) : nField (formatXYN op x y n) = n :=
  (BitVec.extractLsb'_append_eq_of_add_le (by decide)).trans
    ((BitVec.extractLsb'_append_eq_of_add_le (by decide)).trans BitVec.extractLsb'_append_eq_right)

theorem formatXYN_fields (w : Word) : formatXYN (opField w) (xField w) (yField w) (nField w) = w := by
  have h : regBits (yField w) ++ nField w = nnField w :=
    BitVec.extractLsb'_append_extractLsb'_eq_extractLsb' (x := w) (start₁ := 0) (len₁ := 4) (start₂ := 4) (len₂ := 4) rfl
  rw [formatXYN, h]
  exact formatXI_fields w

/-! ## Bytes -/

/-- The two bytes of a word rebuild it (R52). -/
@[simp] theorem wordOfBytes_extract (w : Word) : wordOfBytes (w.extractLsb' 8 8) (w.extractLsb' 0 8) = w := by
  have h := BitVec.extractLsb'_append_extractLsb'_eq_extractLsb' (x := w) (start₁ := 0) (len₁ := 8) (start₂ := 8)
    (len₂ := 8) rfl
  exact h.trans BitVec.extractLsb'_eq_self

/-- A word of two bytes as a number, the first byte the more significant (R52). -/
theorem toNat_wordOfBytes (hi lo : Byte) : (wordOfBytes hi lo).toNat = hi.toNat * 256 + lo.toNat := by
  rw [wordOfBytes, BitVec.toNat_append, Nat.shiftLeft_eq, Nat.mul_comm, ← Nat.two_pow_add_eq_or_of_lt lo.isLt]

/-- Decoding two bytes is decoding their word. -/
theorem decode_two (hi lo : Byte) (rest : List Byte) :
    decode (hi :: lo :: rest) =
      match decodeWord (wordOfBytes hi lo) with
      | .ok i => .ok (i, rest)
      | .error e => .error e := rfl

/-! ## Rows of the opcode table -/

namespace Machine

theorem covers_formatA (op : Nibble) (nnn : Addr) :
    (OpcodeRow.mk 0xF000#16 (formatA op 0#12)).covers (formatA op nnn) = true := by
  have h : formatA op nnn &&& 0xF000#16 = formatA op 0#12 := by
    have m : 0xF000#16 = formatA 0xF#4 0#12 := rfl
    have o : op &&& 0xF#4 = op := BitVec.and_allOnes
    rw [m]
    exact BitVec.and_append.trans (by rw [o, BitVec.and_zero]; rfl)
  simp [OpcodeRow.covers, h]

theorem covers_formatXI_op (op : Nibble) (x : Reg) (nn : Byte) :
    (OpcodeRow.mk 0xF000#16 (formatA op 0#12)).covers (formatXI op x nn) = true :=
  covers_formatA op (regBits x ++ nn)

theorem covers_formatXYN_op (op : Nibble) (x y : Reg) (n : Nibble) :
    (OpcodeRow.mk 0xF000#16 (formatA op 0#12)).covers (formatXYN op x y n) = true :=
  covers_formatA op (regBits x ++ (regBits y ++ n))

theorem covers_formatXI (op : Nibble) (x : Reg) (nn : Byte) :
    (OpcodeRow.mk 0xF0FF#16 (formatXI op 0 nn)).covers (formatXI op x nn) = true := by
  have h : formatXI op x nn &&& 0xF0FF#16 = formatXI op 0 nn := by
    have m : 0xF0FF#16 = formatXI 0xF#4 0 0xFF#8 := rfl
    have o : op &&& 0xF#4 = op := BitVec.and_allOnes
    have b : nn &&& 0xFF#8 = nn := BitVec.and_allOnes
    have z : regBits x &&& regBits 0 = regBits 0 := BitVec.and_zero
    have lo : (regBits x ++ nn) &&& (regBits 0 ++ 0xFF#8) = regBits 0 ++ nn := by rw [BitVec.and_append, b, z]
    rw [m]
    exact BitVec.and_append.trans (by rw [o, lo]; rfl)
  simp [OpcodeRow.covers, h]

theorem covers_formatXYN (op : Nibble) (x y : Reg) (n : Nibble) :
    (OpcodeRow.mk 0xF00F#16 (formatXYN op 0 0 n)).covers (formatXYN op x y n) = true := by
  have h : formatXYN op x y n &&& 0xF00F#16 = formatXYN op 0 0 n := by
    have m : 0xF00F#16 = formatXYN 0xF#4 0 0 0xF#4 := rfl
    have o : op &&& 0xF#4 = op := BitVec.and_allOnes
    have b : n &&& 0xF#4 = n := BitVec.and_allOnes
    have z : ∀ r : Reg, regBits r &&& regBits 0 = regBits 0 := fun _ => BitVec.and_zero
    have lo : (regBits y ++ n) &&& (regBits 0 ++ 0xF#4) = regBits 0 ++ n := by rw [BitVec.and_append, b, z]
    have mid : (regBits x ++ (regBits y ++ n)) &&& (regBits 0 ++ (regBits 0 ++ 0xF#4)) =
        regBits 0 ++ (regBits 0 ++ n) := by rw [BitVec.and_append, lo, z]
    rw [m]
    exact BitVec.and_append.trans (by rw [o, mid]; rfl)
  simp [OpcodeRow.covers, h]

end Machine

end Sys2Proof
end

