-- ==== Sys2Proof/Laws/Memory.lean ====
section
/-! SUPPORT. Memory: a read after a write, for every memory, and that every memory operation keeps the canonical form. -/

namespace Sys2Proof.Machine

@[simp] theorem Memory.read_nil (a : Nat) : Memory.read [] a = resetByte a := rfl

theorem Memory.read_cons (m : Memory) (b : Nat) (u : Byte) (a : Nat) :
    Memory.read ((b, u) :: m) a = if a = b then u else m.read a := rfl

theorem Memory.remove_cons (m : Memory) (b : Nat) (u : Byte) (a : Nat) :
    Memory.remove ((b, u) :: m) a = if b = a then m.remove a else (b, u) :: m.remove a := by
  by_cases h : b = a <;> simp [Memory.remove, h]

/-- Removing an entry: its address reads as after reset, the others as before. -/
theorem Memory.read_remove (m : Memory) (a b : Nat) :
    (m.remove a).read b = if b = a then resetByte a else m.read b := by
  induction m with
  | nil => by_cases h : b = a <;> simp [Memory.remove, h]
  | cons e m ih =>
    obtain ⟨c, u⟩ := e
    rw [Memory.remove_cons]
    split
    · rename_i hc
      subst hc
      rw [ih, Memory.read_cons]
      split <;> rfl
    · rename_i hc
      rw [Memory.read_cons, Memory.read_cons, ih]
      by_cases hb : b = a
      · subst hb; simp [Ne.symm hc]
      · simp [hb]

theorem Memory.mem_remove {m : Memory} {a : Nat} {e : Host.Cell} (h : e ∈ m.remove a) : e.1 ≠ a := by
  simpa [Memory.remove] using (List.mem_filter.mp h).2

/-- Inserting at an address that is not listed: it reads as the byte, the others as before. -/
theorem Memory.read_insert {m : Memory} {a : Nat} (v : Byte) (b : Nat) (h : ∀ e ∈ m, e.1 ≠ a) :
    (m.insert a v).read b = if b = a then v else m.read b := by
  induction m with
  | nil => rfl
  | cons e m ih =>
    obtain ⟨c, u⟩ := e
    have hc : c ≠ a := h (c, u) (by simp)
    simp only [Memory.insert]
    split
    · rw [Memory.read_cons]
    · rw [Memory.read_cons, Memory.read_cons, ih fun e he => h e (by simp [he])]
      by_cases hb : b = a
      · subst hb; simp [Ne.symm hc]
      · simp [hb]

/-- What a memory holds after a write: the byte at its address, and everything else as before. -/
theorem Memory.read_write (m : Memory) (a : Nat) (v : Byte) (b : Nat) :
    (m.write a v).read b = if b = a then v else m.read b := by
  unfold Memory.write
  split
  · rename_i h; rw [Memory.read_remove, h]
  · rw [Memory.read_insert v b fun e he => Memory.mem_remove he, Memory.read_remove]
    by_cases hb : b = a <;> simp [hb]

/-- The canonical form is weaker from a lower start. -/
theorem Memory.wfFrom_mono {m : Memory} {lo hi : Nat} (h : lo ≤ hi) (w : m.wfFrom hi = true) :
    m.wfFrom lo = true := by
  cases m with
  | nil => rfl
  | cons e m =>
    simp only [Memory.wfFrom, Bool.and_eq_true, decide_eq_true_eq] at w ⊢
    exact ⟨⟨⟨by omega, w.1.1.2⟩, w.1.2⟩, w.2⟩

theorem Memory.wfFrom_remove {m : Memory} {lo : Nat} (a : Nat) (w : m.wfFrom lo = true) :
    (m.remove a).wfFrom lo = true := by
  induction m generalizing lo with
  | nil => rfl
  | cons e m ih =>
    obtain ⟨b, u⟩ := e
    simp only [Memory.wfFrom, Bool.and_eq_true, decide_eq_true_eq] at w
    rw [Memory.remove_cons]
    split
    · exact Memory.wfFrom_mono (by omega) (ih w.2)
    · simp only [Memory.wfFrom, Bool.and_eq_true, decide_eq_true_eq]
      exact ⟨w.1, ih w.2⟩

theorem Memory.wfFrom_insert {m : Memory} {lo a : Nat} {v : Byte} (hlo : lo ≤ a) (ha : a < 4096)
    (hv : v ≠ resetByte a) (h : ∀ e ∈ m, e.1 ≠ a) (w : m.wfFrom lo = true) : (m.insert a v).wfFrom lo = true := by
  induction m generalizing lo with
  | nil => simp [Memory.insert, Memory.wfFrom, hlo, ha, hv]
  | cons e m ih =>
    obtain ⟨b, u⟩ := e
    have hb : b ≠ a := h (b, u) (by simp)
    simp only [Memory.wfFrom, Bool.and_eq_true, decide_eq_true_eq] at w
    simp only [Memory.insert]
    split
    · simp only [Memory.wfFrom, Bool.and_eq_true, decide_eq_true_eq]
      exact ⟨⟨⟨hlo, ha⟩, hv⟩, ⟨⟨by omega, w.1.1.2⟩, w.1.2⟩, w.2⟩
    · simp only [Memory.wfFrom, Bool.and_eq_true, decide_eq_true_eq]
      exact ⟨w.1, ih (by omega) (fun e he => h e (by simp [he])) w.2⟩

/-- Writing at an address below 4096 keeps the canonical form. -/
theorem Memory.wf_write {m : Memory} {a : Nat} (v : Byte) (ha : a < 4096) (w : m.wf = true) :
    (m.write a v).wf = true := by
  unfold Memory.write
  split
  · exact Memory.wfFrom_remove a w
  · rename_i hv
    exact Memory.wfFrom_insert (Nat.zero_le a) ha hv (fun e he => Memory.mem_remove he) (Memory.wfFrom_remove a w)

/-- The memory of a reset is in canonical form. -/
theorem reset_mem_wf : State.reset.mem.wf = true := rfl

end Sys2Proof.Machine
end

