-- ==== Sys2Proof/Laws/State.lean ====
section
/-! SUPPORT. What every named update of State does to every field, true by unfolding and tagged @[simp], so that no later
proof unfolds a record update. -/

namespace Sys2Proof.Machine

/-! ### `State.setReg` -/

@[simp] theorem State.setReg_V (s : State) (r : Reg) (v : Byte) : (s.setReg r v).V = s.V.set r v := rfl
@[simp] theorem State.setReg_I (s : State) (r : Reg) (v : Byte) : (s.setReg r v).I = s.I := rfl
@[simp] theorem State.setReg_pc (s : State) (r : Reg) (v : Byte) : (s.setReg r v).pc = s.pc := rfl
@[simp] theorem State.setReg_sp (s : State) (r : Reg) (v : Byte) : (s.setReg r v).sp = s.sp := rfl
@[simp] theorem State.setReg_stack (s : State) (r : Reg) (v : Byte) : (s.setReg r v).stack = s.stack := rfl
@[simp] theorem State.setReg_DT (s : State) (r : Reg) (v : Byte) : (s.setReg r v).DT = s.DT := rfl
@[simp] theorem State.setReg_ST (s : State) (r : Reg) (v : Byte) : (s.setReg r v).ST = s.ST := rfl
@[simp] theorem State.setReg_key (s : State) (r : Reg) (v : Byte) : (s.setReg r v).key = s.key := rfl
@[simp] theorem State.setReg_px (s : State) (r : Reg) (v : Byte) : (s.setReg r v).px = s.px := rfl
@[simp] theorem State.setReg_currentOpcode (s : State) (r : Reg) (v : Byte) : (s.setReg r v).currentOpcode = s.currentOpcode := rfl
@[simp] theorem State.setReg_drawFlag (s : State) (r : Reg) (v : Byte) : (s.setReg r v).drawFlag = s.drawFlag := rfl
@[simp] theorem State.setReg_fault (s : State) (r : Reg) (v : Byte) : (s.setReg r v).fault = s.fault := rfl
@[simp] theorem State.setReg_mem (s : State) (r : Reg) (v : Byte) : (s.setReg r v).mem = s.mem := rfl
@[simp] theorem State.setReg_cfg (s : State) (r : Reg) (v : Byte) : (s.setReg r v).cfg = s.cfg := rfl
@[simp] theorem State.setReg_draws (s : State) (r : Reg) (v : Byte) : (s.setReg r v).draws = s.draws := rfl

/-! ### `State.storeByte` -/

@[simp] theorem State.storeByte_V (s : State) (a : Nat) (v : Byte) : (s.storeByte a v).V = s.V := rfl
@[simp] theorem State.storeByte_I (s : State) (a : Nat) (v : Byte) : (s.storeByte a v).I = s.I := rfl
@[simp] theorem State.storeByte_pc (s : State) (a : Nat) (v : Byte) : (s.storeByte a v).pc = s.pc := rfl
@[simp] theorem State.storeByte_sp (s : State) (a : Nat) (v : Byte) : (s.storeByte a v).sp = s.sp := rfl
@[simp] theorem State.storeByte_stack (s : State) (a : Nat) (v : Byte) : (s.storeByte a v).stack = s.stack := rfl
@[simp] theorem State.storeByte_DT (s : State) (a : Nat) (v : Byte) : (s.storeByte a v).DT = s.DT := rfl
@[simp] theorem State.storeByte_ST (s : State) (a : Nat) (v : Byte) : (s.storeByte a v).ST = s.ST := rfl
@[simp] theorem State.storeByte_key (s : State) (a : Nat) (v : Byte) : (s.storeByte a v).key = s.key := rfl
@[simp] theorem State.storeByte_px (s : State) (a : Nat) (v : Byte) : (s.storeByte a v).px = s.px := rfl
@[simp] theorem State.storeByte_currentOpcode (s : State) (a : Nat) (v : Byte) : (s.storeByte a v).currentOpcode = s.currentOpcode := rfl
@[simp] theorem State.storeByte_drawFlag (s : State) (a : Nat) (v : Byte) : (s.storeByte a v).drawFlag = s.drawFlag := rfl
@[simp] theorem State.storeByte_fault (s : State) (a : Nat) (v : Byte) : (s.storeByte a v).fault = s.fault := rfl
@[simp] theorem State.storeByte_mem (s : State) (a : Nat) (v : Byte) : (s.storeByte a v).mem = s.mem.write (a % 4096) v := rfl
@[simp] theorem State.storeByte_cfg (s : State) (a : Nat) (v : Byte) : (s.storeByte a v).cfg = s.cfg := rfl
@[simp] theorem State.storeByte_draws (s : State) (a : Nat) (v : Byte) : (s.storeByte a v).draws = s.draws := rfl

/-! ### `State.skip` -/

@[simp] theorem State.skip_V (s : State) : (s.skip).V = s.V := rfl
@[simp] theorem State.skip_I (s : State) : (s.skip).I = s.I := rfl
@[simp] theorem State.skip_pc (s : State) : (s.skip).pc = s.pc + 2#16 := rfl
@[simp] theorem State.skip_sp (s : State) : (s.skip).sp = s.sp := rfl
@[simp] theorem State.skip_stack (s : State) : (s.skip).stack = s.stack := rfl
@[simp] theorem State.skip_DT (s : State) : (s.skip).DT = s.DT := rfl
@[simp] theorem State.skip_ST (s : State) : (s.skip).ST = s.ST := rfl
@[simp] theorem State.skip_key (s : State) : (s.skip).key = s.key := rfl
@[simp] theorem State.skip_px (s : State) : (s.skip).px = s.px := rfl
@[simp] theorem State.skip_currentOpcode (s : State) : (s.skip).currentOpcode = s.currentOpcode := rfl
@[simp] theorem State.skip_drawFlag (s : State) : (s.skip).drawFlag = s.drawFlag := rfl
@[simp] theorem State.skip_fault (s : State) : (s.skip).fault = s.fault := rfl
@[simp] theorem State.skip_mem (s : State) : (s.skip).mem = s.mem := rfl
@[simp] theorem State.skip_cfg (s : State) : (s.skip).cfg = s.cfg := rfl
@[simp] theorem State.skip_draws (s : State) : (s.skip).draws = s.draws := rfl

/-! ### `State.jump` -/

@[simp] theorem State.jump_V (s : State) (a : Word) : (s.jump a).V = s.V := rfl
@[simp] theorem State.jump_I (s : State) (a : Word) : (s.jump a).I = s.I := rfl
@[simp] theorem State.jump_pc (s : State) (a : Word) : (s.jump a).pc = a := rfl
@[simp] theorem State.jump_sp (s : State) (a : Word) : (s.jump a).sp = s.sp := rfl
@[simp] theorem State.jump_stack (s : State) (a : Word) : (s.jump a).stack = s.stack := rfl
@[simp] theorem State.jump_DT (s : State) (a : Word) : (s.jump a).DT = s.DT := rfl
@[simp] theorem State.jump_ST (s : State) (a : Word) : (s.jump a).ST = s.ST := rfl
@[simp] theorem State.jump_key (s : State) (a : Word) : (s.jump a).key = s.key := rfl
@[simp] theorem State.jump_px (s : State) (a : Word) : (s.jump a).px = s.px := rfl
@[simp] theorem State.jump_currentOpcode (s : State) (a : Word) : (s.jump a).currentOpcode = s.currentOpcode := rfl
@[simp] theorem State.jump_drawFlag (s : State) (a : Word) : (s.jump a).drawFlag = s.drawFlag := rfl
@[simp] theorem State.jump_fault (s : State) (a : Word) : (s.jump a).fault = s.fault := rfl
@[simp] theorem State.jump_mem (s : State) (a : Word) : (s.jump a).mem = s.mem := rfl
@[simp] theorem State.jump_cfg (s : State) (a : Word) : (s.jump a).cfg = s.cfg := rfl
@[simp] theorem State.jump_draws (s : State) (a : Word) : (s.jump a).draws = s.draws := rfl

/-! ### `State.raise` -/

@[simp] theorem State.raise_V (s : State) (f : Fault) (w a : Word) : (s.raise f w a).V = s.V := rfl
@[simp] theorem State.raise_I (s : State) (f : Fault) (w a : Word) : (s.raise f w a).I = s.I := rfl
@[simp] theorem State.raise_pc (s : State) (f : Fault) (w a : Word) : (s.raise f w a).pc = s.pc := rfl
@[simp] theorem State.raise_sp (s : State) (f : Fault) (w a : Word) : (s.raise f w a).sp = s.sp := rfl
@[simp] theorem State.raise_stack (s : State) (f : Fault) (w a : Word) : (s.raise f w a).stack = s.stack := rfl
@[simp] theorem State.raise_DT (s : State) (f : Fault) (w a : Word) : (s.raise f w a).DT = s.DT := rfl
@[simp] theorem State.raise_ST (s : State) (f : Fault) (w a : Word) : (s.raise f w a).ST = s.ST := rfl
@[simp] theorem State.raise_key (s : State) (f : Fault) (w a : Word) : (s.raise f w a).key = s.key := rfl
@[simp] theorem State.raise_px (s : State) (f : Fault) (w a : Word) : (s.raise f w a).px = s.px := rfl
@[simp] theorem State.raise_currentOpcode (s : State) (f : Fault) (w a : Word) : (s.raise f w a).currentOpcode = s.currentOpcode := rfl
@[simp] theorem State.raise_drawFlag (s : State) (f : Fault) (w a : Word) : (s.raise f w a).drawFlag = s.drawFlag := rfl
@[simp] theorem State.raise_fault (s : State) (f : Fault) (w a : Word) : (s.raise f w a).fault = { cause := some f, opcode := w, addr := a } := rfl
@[simp] theorem State.raise_mem (s : State) (f : Fault) (w a : Word) : (s.raise f w a).mem = s.mem := rfl
@[simp] theorem State.raise_cfg (s : State) (f : Fault) (w a : Word) : (s.raise f w a).cfg = s.cfg := rfl
@[simp] theorem State.raise_draws (s : State) (f : Fault) (w a : Word) : (s.raise f w a).draws = s.draws := rfl

/-! ### `State.raiseHere` -/

@[simp] theorem State.raiseHere_V (s : State) (f : Fault) : (s.raiseHere f).V = s.V := rfl
@[simp] theorem State.raiseHere_I (s : State) (f : Fault) : (s.raiseHere f).I = s.I := rfl
@[simp] theorem State.raiseHere_pc (s : State) (f : Fault) : (s.raiseHere f).pc = s.pc := rfl
@[simp] theorem State.raiseHere_sp (s : State) (f : Fault) : (s.raiseHere f).sp = s.sp := rfl
@[simp] theorem State.raiseHere_stack (s : State) (f : Fault) : (s.raiseHere f).stack = s.stack := rfl
@[simp] theorem State.raiseHere_DT (s : State) (f : Fault) : (s.raiseHere f).DT = s.DT := rfl
@[simp] theorem State.raiseHere_ST (s : State) (f : Fault) : (s.raiseHere f).ST = s.ST := rfl
@[simp] theorem State.raiseHere_key (s : State) (f : Fault) : (s.raiseHere f).key = s.key := rfl
@[simp] theorem State.raiseHere_px (s : State) (f : Fault) : (s.raiseHere f).px = s.px := rfl
@[simp] theorem State.raiseHere_currentOpcode (s : State) (f : Fault) : (s.raiseHere f).currentOpcode = s.currentOpcode := rfl
@[simp] theorem State.raiseHere_drawFlag (s : State) (f : Fault) : (s.raiseHere f).drawFlag = s.drawFlag := rfl
@[simp] theorem State.raiseHere_fault (s : State) (f : Fault) : (s.raiseHere f).fault = { cause := some f, opcode := s.currentOpcode, addr := s.pc0 } := rfl
@[simp] theorem State.raiseHere_mem (s : State) (f : Fault) : (s.raiseHere f).mem = s.mem := rfl
@[simp] theorem State.raiseHere_cfg (s : State) (f : Fault) : (s.raiseHere f).cfg = s.cfg := rfl
@[simp] theorem State.raiseHere_draws (s : State) (f : Fault) : (s.raiseHere f).draws = s.draws := rfl

/-! ### `State.setI` -/

@[simp] theorem State.setI_V (s : State) (v : Word) : (s.setI v).V = s.V := rfl
@[simp] theorem State.setI_I (s : State) (v : Word) : (s.setI v).I = v := rfl
@[simp] theorem State.setI_pc (s : State) (v : Word) : (s.setI v).pc = s.pc := rfl
@[simp] theorem State.setI_sp (s : State) (v : Word) : (s.setI v).sp = s.sp := rfl
@[simp] theorem State.setI_stack (s : State) (v : Word) : (s.setI v).stack = s.stack := rfl
@[simp] theorem State.setI_DT (s : State) (v : Word) : (s.setI v).DT = s.DT := rfl
@[simp] theorem State.setI_ST (s : State) (v : Word) : (s.setI v).ST = s.ST := rfl
@[simp] theorem State.setI_key (s : State) (v : Word) : (s.setI v).key = s.key := rfl
@[simp] theorem State.setI_px (s : State) (v : Word) : (s.setI v).px = s.px := rfl
@[simp] theorem State.setI_currentOpcode (s : State) (v : Word) : (s.setI v).currentOpcode = s.currentOpcode := rfl
@[simp] theorem State.setI_drawFlag (s : State) (v : Word) : (s.setI v).drawFlag = s.drawFlag := rfl
@[simp] theorem State.setI_fault (s : State) (v : Word) : (s.setI v).fault = s.fault := rfl
@[simp] theorem State.setI_mem (s : State) (v : Word) : (s.setI v).mem = s.mem := rfl
@[simp] theorem State.setI_cfg (s : State) (v : Word) : (s.setI v).cfg = s.cfg := rfl
@[simp] theorem State.setI_draws (s : State) (v : Word) : (s.setI v).draws = s.draws := rfl

/-! ### `State.randomInto` -/

@[simp] theorem State.randomInto_V (s : State) (b : Byte) (x : Reg) (nn : Byte) : (s.randomInto b x nn).V = s.V.set x (b &&& nn) := rfl
@[simp] theorem State.randomInto_I (s : State) (b : Byte) (x : Reg) (nn : Byte) : (s.randomInto b x nn).I = s.I := rfl
@[simp] theorem State.randomInto_pc (s : State) (b : Byte) (x : Reg) (nn : Byte) : (s.randomInto b x nn).pc = s.pc := rfl
@[simp] theorem State.randomInto_sp (s : State) (b : Byte) (x : Reg) (nn : Byte) : (s.randomInto b x nn).sp = s.sp := rfl
@[simp] theorem State.randomInto_stack (s : State) (b : Byte) (x : Reg) (nn : Byte) : (s.randomInto b x nn).stack = s.stack := rfl
@[simp] theorem State.randomInto_DT (s : State) (b : Byte) (x : Reg) (nn : Byte) : (s.randomInto b x nn).DT = s.DT := rfl
@[simp] theorem State.randomInto_ST (s : State) (b : Byte) (x : Reg) (nn : Byte) : (s.randomInto b x nn).ST = s.ST := rfl
@[simp] theorem State.randomInto_key (s : State) (b : Byte) (x : Reg) (nn : Byte) : (s.randomInto b x nn).key = s.key := rfl
@[simp] theorem State.randomInto_px (s : State) (b : Byte) (x : Reg) (nn : Byte) : (s.randomInto b x nn).px = s.px := rfl
@[simp] theorem State.randomInto_currentOpcode (s : State) (b : Byte) (x : Reg) (nn : Byte) : (s.randomInto b x nn).currentOpcode = s.currentOpcode := rfl
@[simp] theorem State.randomInto_drawFlag (s : State) (b : Byte) (x : Reg) (nn : Byte) : (s.randomInto b x nn).drawFlag = s.drawFlag := rfl
@[simp] theorem State.randomInto_fault (s : State) (b : Byte) (x : Reg) (nn : Byte) : (s.randomInto b x nn).fault = s.fault := rfl
@[simp] theorem State.randomInto_mem (s : State) (b : Byte) (x : Reg) (nn : Byte) : (s.randomInto b x nn).mem = s.mem := rfl
@[simp] theorem State.randomInto_cfg (s : State) (b : Byte) (x : Reg) (nn : Byte) : (s.randomInto b x nn).cfg = s.cfg := rfl
@[simp] theorem State.randomInto_draws (s : State) (b : Byte) (x : Reg) (nn : Byte) : (s.randomInto b x nn).draws = s.draws + 1 := rfl

/-! ### `State.flagThenResult` -/

@[simp] theorem State.flagThenResult_V (s : State) (x : Reg) (f : Bool) (v : Byte) : (s.flagThenResult x f v).V = (s.V.set regF (flagByte f)).set x v := rfl
@[simp] theorem State.flagThenResult_I (s : State) (x : Reg) (f : Bool) (v : Byte) : (s.flagThenResult x f v).I = s.I := rfl
@[simp] theorem State.flagThenResult_pc (s : State) (x : Reg) (f : Bool) (v : Byte) : (s.flagThenResult x f v).pc = s.pc := rfl
@[simp] theorem State.flagThenResult_sp (s : State) (x : Reg) (f : Bool) (v : Byte) : (s.flagThenResult x f v).sp = s.sp := rfl
@[simp] theorem State.flagThenResult_stack (s : State) (x : Reg) (f : Bool) (v : Byte) : (s.flagThenResult x f v).stack = s.stack := rfl
@[simp] theorem State.flagThenResult_DT (s : State) (x : Reg) (f : Bool) (v : Byte) : (s.flagThenResult x f v).DT = s.DT := rfl
@[simp] theorem State.flagThenResult_ST (s : State) (x : Reg) (f : Bool) (v : Byte) : (s.flagThenResult x f v).ST = s.ST := rfl
@[simp] theorem State.flagThenResult_key (s : State) (x : Reg) (f : Bool) (v : Byte) : (s.flagThenResult x f v).key = s.key := rfl
@[simp] theorem State.flagThenResult_px (s : State) (x : Reg) (f : Bool) (v : Byte) : (s.flagThenResult x f v).px = s.px := rfl
@[simp] theorem State.flagThenResult_currentOpcode (s : State) (x : Reg) (f : Bool) (v : Byte) : (s.flagThenResult x f v).currentOpcode = s.currentOpcode := rfl
@[simp] theorem State.flagThenResult_drawFlag (s : State) (x : Reg) (f : Bool) (v : Byte) : (s.flagThenResult x f v).drawFlag = s.drawFlag := rfl
@[simp] theorem State.flagThenResult_fault (s : State) (x : Reg) (f : Bool) (v : Byte) : (s.flagThenResult x f v).fault = s.fault := rfl
@[simp] theorem State.flagThenResult_mem (s : State) (x : Reg) (f : Bool) (v : Byte) : (s.flagThenResult x f v).mem = s.mem := rfl
@[simp] theorem State.flagThenResult_cfg (s : State) (x : Reg) (f : Bool) (v : Byte) : (s.flagThenResult x f v).cfg = s.cfg := rfl
@[simp] theorem State.flagThenResult_draws (s : State) (x : Reg) (f : Bool) (v : Byte) : (s.flagThenResult x f v).draws = s.draws := rfl

/-! ### `State.fetched` -/

@[simp] theorem State.fetched_V (s : State) : (s.fetched).V = s.V := rfl
@[simp] theorem State.fetched_I (s : State) : (s.fetched).I = s.I := rfl
@[simp] theorem State.fetched_pc (s : State) : (s.fetched).pc = s.pc + 2#16 := rfl
@[simp] theorem State.fetched_sp (s : State) : (s.fetched).sp = s.sp := rfl
@[simp] theorem State.fetched_stack (s : State) : (s.fetched).stack = s.stack := rfl
@[simp] theorem State.fetched_DT (s : State) : (s.fetched).DT = s.DT := rfl
@[simp] theorem State.fetched_ST (s : State) : (s.fetched).ST = s.ST := rfl
@[simp] theorem State.fetched_key (s : State) : (s.fetched).key = s.key := rfl
@[simp] theorem State.fetched_px (s : State) : (s.fetched).px = s.px := rfl
@[simp] theorem State.fetched_currentOpcode (s : State) : (s.fetched).currentOpcode = s.fetchWord := rfl
@[simp] theorem State.fetched_drawFlag (s : State) : (s.fetched).drawFlag = s.drawFlag := rfl
@[simp] theorem State.fetched_fault (s : State) : (s.fetched).fault = s.fault := rfl
@[simp] theorem State.fetched_mem (s : State) : (s.fetched).mem = s.mem := rfl
@[simp] theorem State.fetched_cfg (s : State) : (s.fetched).cfg = s.cfg := rfl
@[simp] theorem State.fetched_draws (s : State) : (s.fetched).draws = s.draws := rfl

/-! ### `State.setDrawFlag` -/

@[simp] theorem State.setDrawFlag_V (s : State) (d : Display) : (s.setDrawFlag d).V = s.V := rfl
@[simp] theorem State.setDrawFlag_I (s : State) (d : Display) : (s.setDrawFlag d).I = s.I := rfl
@[simp] theorem State.setDrawFlag_pc (s : State) (d : Display) : (s.setDrawFlag d).pc = s.pc := rfl
@[simp] theorem State.setDrawFlag_sp (s : State) (d : Display) : (s.setDrawFlag d).sp = s.sp := rfl
@[simp] theorem State.setDrawFlag_stack (s : State) (d : Display) : (s.setDrawFlag d).stack = s.stack := rfl
@[simp] theorem State.setDrawFlag_DT (s : State) (d : Display) : (s.setDrawFlag d).DT = s.DT := rfl
@[simp] theorem State.setDrawFlag_ST (s : State) (d : Display) : (s.setDrawFlag d).ST = s.ST := rfl
@[simp] theorem State.setDrawFlag_key (s : State) (d : Display) : (s.setDrawFlag d).key = s.key := rfl
@[simp] theorem State.setDrawFlag_px (s : State) (d : Display) : (s.setDrawFlag d).px = s.px := rfl
@[simp] theorem State.setDrawFlag_currentOpcode (s : State) (d : Display) : (s.setDrawFlag d).currentOpcode = s.currentOpcode := rfl
@[simp] theorem State.setDrawFlag_drawFlag (s : State) (d : Display) : (s.setDrawFlag d).drawFlag = decide (s.px ≠ d) := rfl
@[simp] theorem State.setDrawFlag_fault (s : State) (d : Display) : (s.setDrawFlag d).fault = s.fault := rfl
@[simp] theorem State.setDrawFlag_mem (s : State) (d : Display) : (s.setDrawFlag d).mem = s.mem := rfl
@[simp] theorem State.setDrawFlag_cfg (s : State) (d : Display) : (s.setDrawFlag d).cfg = s.cfg := rfl
@[simp] theorem State.setDrawFlag_draws (s : State) (d : Display) : (s.setDrawFlag d).draws = s.draws := rfl

/-! ### `State.tick` -/

@[simp] theorem State.tick_V (s : State) : (s.tick).V = s.V := rfl
@[simp] theorem State.tick_I (s : State) : (s.tick).I = s.I := rfl
@[simp] theorem State.tick_pc (s : State) : (s.tick).pc = s.pc := rfl
@[simp] theorem State.tick_sp (s : State) : (s.tick).sp = s.sp := rfl
@[simp] theorem State.tick_stack (s : State) : (s.tick).stack = s.stack := rfl
@[simp] theorem State.tick_DT (s : State) : (s.tick).DT = tickByte s.DT := rfl
@[simp] theorem State.tick_ST (s : State) : (s.tick).ST = tickByte s.ST := rfl
@[simp] theorem State.tick_key (s : State) : (s.tick).key = s.key := rfl
@[simp] theorem State.tick_px (s : State) : (s.tick).px = s.px := rfl
@[simp] theorem State.tick_currentOpcode (s : State) : (s.tick).currentOpcode = s.currentOpcode := rfl
@[simp] theorem State.tick_drawFlag (s : State) : (s.tick).drawFlag = s.drawFlag := rfl
@[simp] theorem State.tick_fault (s : State) : (s.tick).fault = s.fault := rfl
@[simp] theorem State.tick_mem (s : State) : (s.tick).mem = s.mem := rfl
@[simp] theorem State.tick_cfg (s : State) : (s.tick).cfg = s.cfg := rfl
@[simp] theorem State.tick_draws (s : State) : (s.tick).draws = s.draws := rfl

/-! ### `State.noOp` -/

@[simp] theorem State.noOp_V (s : State) : (s.noOp).V = s.V := rfl
@[simp] theorem State.noOp_I (s : State) : (s.noOp).I = s.I := rfl
@[simp] theorem State.noOp_pc (s : State) : (s.noOp).pc = s.pc := rfl
@[simp] theorem State.noOp_sp (s : State) : (s.noOp).sp = s.sp := rfl
@[simp] theorem State.noOp_stack (s : State) : (s.noOp).stack = s.stack := rfl
@[simp] theorem State.noOp_DT (s : State) : (s.noOp).DT = tickByte s.DT := rfl
@[simp] theorem State.noOp_ST (s : State) : (s.noOp).ST = tickByte s.ST := rfl
@[simp] theorem State.noOp_key (s : State) : (s.noOp).key = s.key := rfl
@[simp] theorem State.noOp_px (s : State) : (s.noOp).px = s.px := rfl
@[simp] theorem State.noOp_currentOpcode (s : State) : (s.noOp).currentOpcode = s.currentOpcode := rfl
@[simp] theorem State.noOp_drawFlag (s : State) : (s.noOp).drawFlag = false := rfl
@[simp] theorem State.noOp_fault (s : State) : (s.noOp).fault = s.fault := rfl
@[simp] theorem State.noOp_mem (s : State) : (s.noOp).mem = s.mem := rfl
@[simp] theorem State.noOp_cfg (s : State) : (s.noOp).cfg = s.cfg := rfl
@[simp] theorem State.noOp_draws (s : State) : (s.noOp).draws = s.draws := rfl

/-! ### `State.complete` -/

@[simp] theorem State.complete_V (s : State) (d : Display) : (s.complete d).V = s.V := rfl
@[simp] theorem State.complete_I (s : State) (d : Display) : (s.complete d).I = s.I := rfl
@[simp] theorem State.complete_pc (s : State) (d : Display) : (s.complete d).pc = s.pc := rfl
@[simp] theorem State.complete_sp (s : State) (d : Display) : (s.complete d).sp = s.sp := rfl
@[simp] theorem State.complete_stack (s : State) (d : Display) : (s.complete d).stack = s.stack := rfl
@[simp] theorem State.complete_DT (s : State) (d : Display) : (s.complete d).DT = tickByte s.DT := rfl
@[simp] theorem State.complete_ST (s : State) (d : Display) : (s.complete d).ST = tickByte s.ST := rfl
@[simp] theorem State.complete_key (s : State) (d : Display) : (s.complete d).key = s.key := rfl
@[simp] theorem State.complete_px (s : State) (d : Display) : (s.complete d).px = s.px := rfl
@[simp] theorem State.complete_currentOpcode (s : State) (d : Display) : (s.complete d).currentOpcode = s.currentOpcode := rfl
@[simp] theorem State.complete_drawFlag (s : State) (d : Display) : (s.complete d).drawFlag = decide (s.px ≠ d) := rfl
@[simp] theorem State.complete_fault (s : State) (d : Display) : (s.complete d).fault = s.fault := rfl
@[simp] theorem State.complete_mem (s : State) (d : Display) : (s.complete d).mem = s.mem := rfl
@[simp] theorem State.complete_cfg (s : State) (d : Display) : (s.complete d).cfg = s.cfg := rfl
@[simp] theorem State.complete_draws (s : State) (d : Display) : (s.complete d).draws = s.draws := rfl

/-! ### `State.skipIf` -/

@[simp] theorem State.skipIf_V (s : State) (c : Bool) : (s.skipIf c).V = s.V := by cases c <;> rfl
@[simp] theorem State.skipIf_I (s : State) (c : Bool) : (s.skipIf c).I = s.I := by cases c <;> rfl
@[simp] theorem State.skipIf_sp (s : State) (c : Bool) : (s.skipIf c).sp = s.sp := by cases c <;> rfl
@[simp] theorem State.skipIf_stack (s : State) (c : Bool) : (s.skipIf c).stack = s.stack := by cases c <;> rfl
@[simp] theorem State.skipIf_DT (s : State) (c : Bool) : (s.skipIf c).DT = s.DT := by cases c <;> rfl
@[simp] theorem State.skipIf_ST (s : State) (c : Bool) : (s.skipIf c).ST = s.ST := by cases c <;> rfl
@[simp] theorem State.skipIf_key (s : State) (c : Bool) : (s.skipIf c).key = s.key := by cases c <;> rfl
@[simp] theorem State.skipIf_px (s : State) (c : Bool) : (s.skipIf c).px = s.px := by cases c <;> rfl
@[simp] theorem State.skipIf_currentOpcode (s : State) (c : Bool) : (s.skipIf c).currentOpcode = s.currentOpcode := by cases c <;> rfl
@[simp] theorem State.skipIf_drawFlag (s : State) (c : Bool) : (s.skipIf c).drawFlag = s.drawFlag := by cases c <;> rfl
@[simp] theorem State.skipIf_fault (s : State) (c : Bool) : (s.skipIf c).fault = s.fault := by cases c <;> rfl
@[simp] theorem State.skipIf_mem (s : State) (c : Bool) : (s.skipIf c).mem = s.mem := by cases c <;> rfl
@[simp] theorem State.skipIf_cfg (s : State) (c : Bool) : (s.skipIf c).cfg = s.cfg := by cases c <;> rfl
@[simp] theorem State.skipIf_draws (s : State) (c : Bool) : (s.skipIf c).draws = s.draws := by cases c <;> rfl
@[simp] theorem State.skipIf_pc (s : State) (c : Bool) : (s.skipIf c).pc = if c then s.pc + 2#16 else s.pc := by
  cases c <;> rfl

/-! ### `hostSetKeys` -/

@[simp] theorem hostSetKeys_V (k : Vector Bool 16) (s : State) : (hostSetKeys k s).V = s.V := rfl
@[simp] theorem hostSetKeys_I (k : Vector Bool 16) (s : State) : (hostSetKeys k s).I = s.I := rfl
@[simp] theorem hostSetKeys_pc (k : Vector Bool 16) (s : State) : (hostSetKeys k s).pc = s.pc := rfl
@[simp] theorem hostSetKeys_sp (k : Vector Bool 16) (s : State) : (hostSetKeys k s).sp = s.sp := rfl
@[simp] theorem hostSetKeys_stack (k : Vector Bool 16) (s : State) : (hostSetKeys k s).stack = s.stack := rfl
@[simp] theorem hostSetKeys_DT (k : Vector Bool 16) (s : State) : (hostSetKeys k s).DT = s.DT := rfl
@[simp] theorem hostSetKeys_ST (k : Vector Bool 16) (s : State) : (hostSetKeys k s).ST = s.ST := rfl
@[simp] theorem hostSetKeys_key (k : Vector Bool 16) (s : State) : (hostSetKeys k s).key = k := rfl
@[simp] theorem hostSetKeys_px (k : Vector Bool 16) (s : State) : (hostSetKeys k s).px = s.px := rfl
@[simp] theorem hostSetKeys_currentOpcode (k : Vector Bool 16) (s : State) : (hostSetKeys k s).currentOpcode = s.currentOpcode := rfl
@[simp] theorem hostSetKeys_drawFlag (k : Vector Bool 16) (s : State) : (hostSetKeys k s).drawFlag = s.drawFlag := rfl
@[simp] theorem hostSetKeys_fault (k : Vector Bool 16) (s : State) : (hostSetKeys k s).fault = s.fault := rfl
@[simp] theorem hostSetKeys_mem (k : Vector Bool 16) (s : State) : (hostSetKeys k s).mem = s.mem := rfl
@[simp] theorem hostSetKeys_cfg (k : Vector Bool 16) (s : State) : (hostSetKeys k s).cfg = s.cfg := rfl
@[simp] theorem hostSetKeys_draws (k : Vector Bool 16) (s : State) : (hostSetKeys k s).draws = s.draws := rfl

end Sys2Proof.Machine
end

