-- ==== Sys2Proof/Laws/Ops.lean ====
section
/-! SUPPORT. One lemma per shared operation that says everything it does, and how the reads (`reg`, `byteAt`, `ea`,
`halted`) see each update. -/

namespace Sys2Proof.Machine

/-! ## Registers -/

/-- A register after a register write. -/
theorem State.reg_setReg (s : State) (r : Reg) (v : Byte) (q : Reg) :
    (s.setReg r v).reg q = if q = r then v else s.reg q := by
  by_cases h : q = r
  · subst h; simp [State.reg, State.setReg]
  · have h' : r.val ≠ q.val := fun e => h (Fin.ext e.symm)
    simp [State.reg, State.setReg, h, h']

@[simp] theorem State.reg_setReg_self (s : State) (r : Reg) (v : Byte) : (s.setReg r v).reg r = v := by
  simp [State.reg_setReg]

theorem State.reg_setReg_of_ne (s : State) {r q : Reg} (v : Byte) (h : q ≠ r) : (s.setReg r v).reg q = s.reg q := by
  simp [State.reg_setReg, h]

/-- Flag first, result second (R123): the destination holds the result, register 15 the flag unless it is the destination. -/
theorem State.reg_flagThenResult (s : State) (x : Reg) (f : Bool) (v : Byte) (q : Reg) :
    (s.flagThenResult x f v).reg q = if q = x then v else if q = regF then flagByte f else s.reg q := by
  simp [State.flagThenResult, State.reg_setReg]

theorem State.reg_randomInto (s : State) (b : Byte) (x : Reg) (nn : Byte) (q : Reg) :
    (s.randomInto b x nn).reg q = if q = x then b &&& nn else s.reg q :=
  State.reg_setReg s x (b &&& nn) q

/-- The registers are all a register read sees. -/
theorem State.reg_congr {s t : State} (h : t.V = s.V) (q : Reg) : t.reg q = s.reg q := by simp [State.reg, h]

@[simp] theorem State.reg_storeByte (s : State) (a : Nat) (v : Byte) (q : Reg) : (s.storeByte a v).reg q = s.reg q := rfl
@[simp] theorem State.reg_skip (s : State) (q : Reg) : s.skip.reg q = s.reg q := rfl
@[simp] theorem State.reg_skipIf (s : State) (c : Bool) (q : Reg) : (s.skipIf c).reg q = s.reg q := by cases c <;> rfl
@[simp] theorem State.reg_jump (s : State) (a : Word) (q : Reg) : (s.jump a).reg q = s.reg q := rfl
@[simp] theorem State.reg_raise (s : State) (f : Fault) (w a : Word) (q : Reg) : (s.raise f w a).reg q = s.reg q := rfl
@[simp] theorem State.reg_raiseHere (s : State) (f : Fault) (q : Reg) : (s.raiseHere f).reg q = s.reg q := rfl
@[simp] theorem State.reg_setI (s : State) (v : Word) (q : Reg) : (s.setI v).reg q = s.reg q := rfl
@[simp] theorem State.reg_fetched (s : State) (q : Reg) : s.fetched.reg q = s.reg q := rfl
@[simp] theorem State.reg_tick (s : State) (q : Reg) : s.tick.reg q = s.reg q := rfl
@[simp] theorem State.reg_complete (s : State) (d : Display) (q : Reg) : (s.complete d).reg q = s.reg q := rfl

/-! ## Memory -/

/-- A byte after a store: the byte stored at its address modulo 4096, everything else as before. -/
theorem State.byteAt_storeByte (s : State) (a : Nat) (v : Byte) (b : Nat) :
    (s.storeByte a v).byteAt b = if b % 4096 = a % 4096 then v else s.byteAt b :=
  Memory.read_write s.mem (a % 4096) v (b % 4096)

/-- A read depends on its address modulo 4096 only. -/
@[simp] theorem State.byteAt_mod (s : State) (a : Nat) : s.byteAt (a % 4096) = s.byteAt a := by
  simp [State.byteAt]

/-- Memory is all a memory read sees. -/
theorem State.byteAt_congr {s t : State} (h : t.mem = s.mem) (a : Nat) : t.byteAt a = s.byteAt a := by
  simp [State.byteAt, h]

@[simp] theorem State.byteAt_setReg (s : State) (r : Reg) (v : Byte) (a : Nat) :
    (s.setReg r v).byteAt a = s.byteAt a := rfl
@[simp] theorem State.byteAt_skip (s : State) (a : Nat) : s.skip.byteAt a = s.byteAt a := rfl
@[simp] theorem State.byteAt_skipIf (s : State) (c : Bool) (a : Nat) : (s.skipIf c).byteAt a = s.byteAt a := by
  cases c <;> rfl
@[simp] theorem State.byteAt_jump (s : State) (w : Word) (a : Nat) : (s.jump w).byteAt a = s.byteAt a := rfl
@[simp] theorem State.byteAt_raise (s : State) (f : Fault) (w p : Word) (a : Nat) :
    (s.raise f w p).byteAt a = s.byteAt a := rfl
@[simp] theorem State.byteAt_raiseHere (s : State) (f : Fault) (a : Nat) : (s.raiseHere f).byteAt a = s.byteAt a := rfl
@[simp] theorem State.byteAt_setI (s : State) (v : Word) (a : Nat) : (s.setI v).byteAt a = s.byteAt a := rfl
@[simp] theorem State.byteAt_flagThenResult (s : State) (x : Reg) (f : Bool) (v : Byte) (a : Nat) :
    (s.flagThenResult x f v).byteAt a = s.byteAt a := rfl
@[simp] theorem State.byteAt_randomInto (s : State) (b : Byte) (x : Reg) (nn : Byte) (a : Nat) :
    (s.randomInto b x nn).byteAt a = s.byteAt a := rfl
@[simp] theorem State.byteAt_fetched (s : State) (a : Nat) : s.fetched.byteAt a = s.byteAt a := rfl
@[simp] theorem State.byteAt_tick (s : State) (a : Nat) : s.tick.byteAt a = s.byteAt a := rfl
@[simp] theorem State.byteAt_complete (s : State) (d : Display) (a : Nat) : (s.complete d).byteAt a = s.byteAt a := rfl

/-- A store keeps memory in its canonical form. -/
theorem State.wf_storeByte {s : State} (a : Nat) (v : Byte) (w : s.mem.wf = true) : (s.storeByte a v).mem.wf = true :=
  Memory.wf_write v (Nat.mod_lt _ (by decide)) w

theorem State.ea_lt (s : State) (k : Nat) : s.ea k < 4096 := Nat.mod_lt _ (by decide)

/-- `I` is all an effective address sees. -/
theorem State.ea_congr {s t : State} (h : t.I = s.I) (k : Nat) : t.ea k = s.ea k := by simp [State.ea, h]

/-- Reading at an effective address is reading at `I + k` (R136, R56). -/
@[simp] theorem State.byteAt_ea (s t : State) (k : Nat) : t.byteAt (s.ea k) = t.byteAt (s.I.toNat + k) :=
  State.byteAt_mod t _

/-- Consecutive stores keep the canonical form and change memory alone. -/
theorem State.storeBytes_spec (bs : List Byte) (s : State) (a : Nat) :
    ∃ m, s.storeBytes a bs = { s with mem := m } ∧ (s.mem.wf = true → m.wf = true) := by
  induction bs generalizing s a with
  | nil => exact ⟨s.mem, rfl, id⟩
  | cons b bs ih =>
    obtain ⟨m, h1, h2⟩ := ih (s.storeByte a b) (a + 1)
    exact ⟨m, by rw [State.storeBytes, h1]; rfl, fun w => h2 (State.wf_storeByte a b w)⟩

/-- A byte after consecutive stores that do not reach the end of memory: byte `k` of the list at `a + k`, the rest as
before. -/
theorem State.byteAt_storeBytes (bs : List Byte) (s : State) (a b : Nat) (h : a + bs.length ≤ 4096) (hb : b < 4096) :
    (s.storeBytes a bs).byteAt b = if a ≤ b then (bs[b - a]?).getD (s.byteAt b) else s.byteAt b := by
  induction bs generalizing s a with
  | nil => simp [State.storeBytes]
  | cons v bs ih =>
    simp only [List.length_cons] at h
    rw [State.storeBytes, ih _ _ (by omega), State.byteAt_storeByte, Nat.mod_eq_of_lt hb,
      Nat.mod_eq_of_lt (show a < 4096 by omega)]
    rcases Nat.lt_trichotomy b a with hlt | heq | hgt
    · simp [show ¬ a ≤ b by omega, show ¬ a + 1 ≤ b by omega, show b ≠ a by omega]
    · subst heq; simp
    · obtain ⟨d, rfl⟩ : ∃ d, b = a + 1 + d := ⟨b - (a + 1), by omega⟩
      simp [show a + 1 + d - a = d + 1 by omega, show a ≤ a + 1 + d by omega, show a + 1 + d ≠ a by omega]

/-! ## The register loops of `Fx55` and `Fx65` -/

/-- Storing registers changes memory alone, and keeps its canonical form. -/
theorem State.storeRegisters_spec (s : State) (k : Nat) :
    ∃ m, s.storeRegisters k = { s with mem := m } ∧ (s.mem.wf = true → m.wf = true) := by
  induction k with
  | zero => exact ⟨s.mem, rfl, id⟩
  | succ k ih =>
    obtain ⟨m, h1, h2⟩ := ih
    refine ⟨m.write (s.ea k % 4096) (s.reg (regNumber k)), by rw [State.storeRegisters, h1]; rfl, fun w => ?_⟩
    exact Memory.wf_write _ (Nat.mod_lt _ (by decide)) (h2 w)

/-- A byte outside the stored ones is as before. -/
theorem State.byteAt_storeRegisters_of_ne (s : State) (k a : Nat) (h : ∀ j < k, a % 4096 ≠ s.ea j) :
    (s.storeRegisters k).byteAt a = s.byteAt a := by
  induction k with
  | zero => rfl
  | succ k ih =>
    rw [State.storeRegisters, State.byteAt_storeByte, if_neg, ih fun j hj => h j (by omega)]
    rw [Nat.mod_eq_of_lt (State.ea_lt s k)]
    exact h k (by omega)

/-- The bytes stored: `V[j]` at `EA(j)`; the at most 16 addresses are distinct (R134). -/
theorem State.byteAt_storeRegisters (s : State) (k j : Nat) (hk : k ≤ 16) (hj : j < k) :
    (s.storeRegisters k).byteAt (s.ea j) = s.reg (regNumber j) := by
  induction k with
  | zero => omega
  | succ k ih =>
    rw [State.storeRegisters, State.byteAt_storeByte, Nat.mod_eq_of_lt (State.ea_lt s j),
      Nat.mod_eq_of_lt (State.ea_lt s k)]
    by_cases h : j = k
    · subst h; simp
    · rw [if_neg, ih (by omega) (by omega)]
      simp only [State.ea]
      omega

theorem regNumber_val {k : Nat} (h : k < 16) : (regNumber k).val = k := Nat.mod_eq_of_lt h

/-- Every register is the one with its number. -/
@[simp] theorem regNumber_self (r : Reg) : regNumber r.val = r := Fin.ext (regNumber_val r.isLt)

/-- Loading registers changes the registers alone. -/
theorem State.loadRegisters_spec (s : State) (k : Nat) : ∃ v, s.loadRegisters k = { s with V := v } := by
  induction k with
  | zero => exact ⟨s.V, rfl⟩
  | succ k ih =>
    obtain ⟨v, h⟩ := ih
    exact ⟨v.set (regNumber k) _, by rw [State.loadRegisters, h]; rfl⟩

/-- A register after loading the first `k`: the byte at `I` plus its number, or its old value (R135). -/
theorem State.reg_loadRegisters (s : State) (k : Nat) (hk : k ≤ 16) (r : Reg) :
    (s.loadRegisters k).reg r = if r.val < k then s.byteAt (s.ea r.val) else s.reg r := by
  induction k with
  | zero => rfl
  | succ k ih =>
    obtain ⟨v, h⟩ := State.loadRegisters_spec s k
    have hb : (s.loadRegisters k).byteAt (s.ea k) = s.byteAt (s.ea k) := by rw [h]; rfl
    rw [State.loadRegisters, State.reg_setReg, ih (by omega)]
    have hr : r = regNumber k ↔ r.val = k := by
      rw [Fin.ext_iff, regNumber_val (by omega)]
    by_cases hrk : r.val = k
    · rw [if_pos (hr.mpr hrk), if_pos (by omega), hrk]
    · rw [if_neg (fun e => hrk (hr.mp e))]
      by_cases hlt : r.val < k
      · rw [if_pos hlt, if_pos (by omega)]
      · rw [if_neg hlt, if_neg (by omega)]

/-! ## Faults -/

@[simp] theorem State.halted_raise (s : State) (f : Fault) (w a : Word) : (s.raise f w a).halted = true := rfl
@[simp] theorem State.halted_raiseHere (s : State) (f : Fault) : (s.raiseHere f).halted = true := rfl

/-- The fault record is all that being halted sees. -/
theorem State.halted_congr {s t : State} (h : t.fault = s.fault) : t.halted = s.halted := by simp [State.halted, h]

@[simp] theorem State.halted_setReg (s : State) (r : Reg) (v : Byte) : (s.setReg r v).halted = s.halted := rfl
@[simp] theorem State.halted_storeByte (s : State) (a : Nat) (v : Byte) : (s.storeByte a v).halted = s.halted := rfl
@[simp] theorem State.halted_skipIf (s : State) (c : Bool) : (s.skipIf c).halted = s.halted := by cases c <;> rfl
@[simp] theorem State.halted_jump (s : State) (a : Word) : (s.jump a).halted = s.halted := rfl
@[simp] theorem State.halted_setI (s : State) (v : Word) : (s.setI v).halted = s.halted := rfl
@[simp] theorem State.halted_flagThenResult (s : State) (x : Reg) (f : Bool) (v : Byte) :
    (s.flagThenResult x f v).halted = s.halted := rfl
@[simp] theorem State.halted_randomInto (s : State) (b : Byte) (x : Reg) (nn : Byte) :
    (s.randomInto b x nn).halted = s.halted := rfl
@[simp] theorem State.halted_fetched (s : State) : s.fetched.halted = s.halted := rfl
@[simp] theorem State.halted_complete (s : State) (d : Display) : (s.complete d).halted = s.halted := rfl
@[simp] theorem State.halted_noOp (s : State) : s.noOp.halted = s.halted := rfl

theorem State.finish_of_halted {s : State} (d : Display) (h : s.halted = true) : s.finish d = s := by
  simp [State.finish, h]

theorem State.finish_of_running {s : State} (d : Display) (h : s.halted = false) : s.finish d = s.complete d := by
  simp [State.finish, h]

/-! ## Timers -/

/-- The tick of a timer: one less, and never below zero (R95). -/
theorem tickByte_eq (v : Byte) : tickByte v = BitVec.ofNat 8 (v.toNat - 1) := by
  have h : ∀ v : Byte, tickByte v = BitVec.ofNat 8 (v.toNat - 1) := by decide
  exact h v

theorem toNat_tickByte (v : Byte) : (tickByte v).toNat = v.toNat - 1 := by
  rw [tickByte_eq, BitVec.toNat_ofNat, Nat.mod_eq_of_lt]
  have := v.isLt
  omega

/-! ## Call stack -/

/-- A push on a stack that is not full (R102). -/
theorem State.push_of_lt (s : State) (a : Word) (h : s.sp.val < 16) :
    s.push a = some { s with stack := s.stack.set s.sp.val a, sp := ⟨s.sp.val + 1, by omega⟩ } := by
  simp [State.push, h]

theorem State.push_of_full (s : State) (a : Word) (h : ¬ s.sp.val < 16) : s.push a = none := by
  simp [State.push, h]

/-- A pop from a stack that is not empty (R100). -/
theorem State.pop_of_pos (s : State) (h : 0 < s.sp.val) :
    s.pop = some ({ s with sp := ⟨s.sp.val - 1, by omega⟩ }, s.stackAt ⟨s.sp.val - 1, by omega⟩) := by
  simp [State.pop, h, State.stackAt]

theorem State.pop_of_empty (s : State) (h : ¬ 0 < s.sp.val) : s.pop = none := by
  simp [State.pop, h]

/-! ## Keypad -/

/-- The key found is pressed and none below it is (R155). -/
theorem State.lowestKey_some {s : State} {k : Key} (h : s.lowestKey = some k) :
    s.keyDown k = true ∧ ∀ j < k, s.keyDown j = false := by
  unfold State.lowestKey at h
  rw [List.find?_eq_some_iff_getElem] at h
  obtain ⟨h1, i, hi, h2, h3⟩ := h
  refine ⟨h1, fun j hj => ?_⟩
  simp only [List.getElem_finRange, List.length_finRange] at h2 h3 hi
  have hji : j.val < i := by rw [← h2] at hj; exact hj
  have := h3 j.val hji
  simpa using this

/-- No key is found exactly when none is pressed. -/
theorem State.lowestKey_none {s : State} : s.lowestKey = none ↔ ∀ k, s.keyDown k = false := by
  simp [State.lowestKey, List.find?_eq_none]

/-! ## Display -/

/-- A pixel after one pixel is flipped. -/
theorem pixel_flipPixel (d : Display) (r r' : Fin 32) (c c' : Fin 64) :
    pixel (flipPixel d r c) r' c' = (pixel d r' c' ^^ (decide (r' = r) && decide (c' = c))) := by
  by_cases hr : r' = r
  · subst hr
    by_cases hc : c' = c
    · subst hc; simp [pixel, flipPixel]
    · have : c.val ≠ c'.val := fun e => hc (Fin.ext e.symm)
      simp [pixel, flipPixel, hc, this]
  · have : r.val ≠ r'.val := fun e => hr (Fin.ext e.symm)
    simp [pixel, flipPixel, hr, this]

@[simp] theorem pixel_clearDisplay (r : Fin 32) (c : Fin 64) : pixel clearDisplay r c = false := by
  simp [pixel, clearDisplay]

/-- Two displays are equal exactly when all their pixels are. -/
theorem display_ext {d e : Display} (h : ∀ r c, pixel d r c = pixel e r c) : d = e := by
  apply Vector.ext
  intro i hi
  apply Vector.ext
  intro j hj
  exact h ⟨i, hi⟩ ⟨j, hj⟩

end Sys2Proof.Machine
end

