-- ==== Sys2Proof/Laws/Draw.lean ====
section
/-! SUPPORT. What the drawing loops of `Dxyn` do to every pixel and to the collision: the loops of spec/44_display.md R141
against the closed description `spriteCovers`. -/

namespace Sys2Proof.Machine

/-- One plotted bit flips its pixel when its column is on the display, and no other. -/
theorem pixel_plot (c : Canvas) (row : Fin 32) (k : Nat) (r : Fin 32) (q : Fin 64) :
    pixel (plot c row k).px r q = (pixel c.px r q ^^ (decide (r = row) && decide (q.val = k))) := by
  unfold plot
  split
  · rename_i h
    simp only [pixel_flipPixel, Fin.ext_iff]
  · rename_i h
    have : q.val ≠ k := by omega
    simp [this]

/-- One plotted bit is a collision exactly when its column is on the display and its pixel lit. -/
theorem hit_plot (c : Canvas) (row : Fin 32) (k : Nat) :
    (plot c row k).hit = true ↔ c.hit = true ∨ ∃ q : Fin 64, q.val = k ∧ pixel c.px row q = true := by
  unfold plot
  split
  · rename_i h
    simp only [Bool.or_eq_true]
    constructor
    · rintro (h1 | h1)
      · exact .inl h1
      · exact .inr ⟨⟨k, h⟩, rfl, h1⟩
    · rintro (h1 | ⟨q, rfl, h1⟩)
      · exact .inl h1
      · exact .inr h1
  · rename_i h
    constructor
    · exact .inl
    · rintro (h1 | ⟨q, rfl, -⟩)
      · exact h1
      · exact absurd q.isLt h

/-- The first `k` columns of a sprite row flip the pixels its 1 bits fall on. -/
theorem pixel_drawColumns (b : Byte) (row : Fin 32) (x0 k : Nat) (c : Canvas) (r : Fin 32) (q : Fin 64) :
    pixel (drawColumns b row x0 k c).px r q =
      (pixel c.px r q ^^
        (decide (r = row) && decide (x0 ≤ q.val) && decide (q.val < x0 + k) && spriteBit b (q.val - x0))) := by
  induction k with
  | zero =>
    by_cases h1 : x0 ≤ q.val
    · simp [drawColumns, show ¬ q.val < x0 by omega]
    · simp [drawColumns, h1]
  | succ k ih =>
    have key : (decide (q.val < x0 + (k + 1))) = (decide (q.val < x0 + k) || decide (q.val = x0 + k)) := by
      rw [Bool.eq_iff_iff]; simp; omega
    simp only [drawColumns, key]
    by_cases hq : q.val = x0 + k
    · have hlt : ¬ q.val < x0 + k := by omega
      have hle : x0 ≤ q.val := by omega
      have hsub : q.val - x0 = k := by omega
      split
      · rename_i hb
        rw [pixel_plot, ih]
        simp [hq, hb]
      · rename_i hb
        rw [ih]
        simp [hq, hb]
    · split
      · rw [pixel_plot, ih]
        simp [hq]
      · rw [ih]
        simp [hq]

/-- The first `k` columns of a sprite row collide when one of its 1 bits falls on a lit pixel. -/
theorem hit_drawColumns (b : Byte) (row : Fin 32) (x0 k : Nat) (c : Canvas) :
    (drawColumns b row x0 k c).hit = true ↔
      c.hit = true ∨ ∃ q : Fin 64, x0 ≤ q.val ∧ q.val < x0 + k ∧ spriteBit b (q.val - x0) = true ∧
        pixel c.px row q = true := by
  induction k with
  | zero =>
    simp only [drawColumns]
    constructor
    · exact .inl
    · rintro (h | ⟨q, h1, h2, -⟩)
      · exact h
      · omega
  | succ k ih =>
    have split_last : (∃ q : Fin 64, x0 ≤ q.val ∧ q.val < x0 + (k + 1) ∧ spriteBit b (q.val - x0) = true ∧
        pixel c.px row q = true) ↔
        (∃ q : Fin 64, x0 ≤ q.val ∧ q.val < x0 + k ∧ spriteBit b (q.val - x0) = true ∧ pixel c.px row q = true) ∨
        (spriteBit b k = true ∧ ∃ q : Fin 64, q.val = x0 + k ∧ pixel c.px row q = true) := by
      constructor
      · rintro ⟨q, h1, h2, h3, h4⟩
        by_cases hq : q.val = x0 + k
        · refine .inr ⟨?_, q, hq, h4⟩
          rwa [hq, Nat.add_sub_cancel_left] at h3
        · exact .inl ⟨q, h1, by omega, h3, h4⟩
      · rintro (⟨q, h1, h2, h3, h4⟩ | ⟨h3, q, hq, h4⟩)
        · exact ⟨q, h1, by omega, h3, h4⟩
        · exact ⟨q, by omega, by omega, by rwa [hq, Nat.add_sub_cancel_left], h4⟩
    rw [split_last, ← or_assoc, ← ih]
    simp only [drawColumns]
    split
    · rename_i hb
      rw [hit_plot]
      have same : (∃ q : Fin 64, q.val = x0 + k ∧ pixel (drawColumns b row x0 k c).px row q = true) ↔
          ∃ q : Fin 64, q.val = x0 + k ∧ pixel c.px row q = true := by
        refine exists_congr fun q => and_congr_right fun hq => ?_
        rw [pixel_drawColumns]
        simp [hq]
      rw [same]
      simp [hb]
    · rename_i hb
      simp [hb]

theorem displayRow_val (k : Nat) : (displayRow k).val = k % 32 := rfl

/-- A sprite of `n + 1` rows covers what its first `n` rows cover and what its last row covers, which is another display row. -/
theorem spriteCovers_succ (rows : Nat → Byte) (x0 y0 n : Nat) (hy : y0 < 32) (hn : n < 32) (r : Fin 32) (q : Fin 64) :
    spriteCovers rows x0 y0 (n + 1) r q =
      if r = displayRow (y0 + n) then
        (decide (x0 ≤ q.val) && decide (q.val < x0 + 8) && spriteBit (rows n) (q.val - x0))
      else spriteCovers rows x0 y0 n r q := by
  have hr := r.isLt
  have hrow : r = displayRow (y0 + n) ↔ (r.val + 32 - y0) % 32 = n := by
    rw [Fin.ext_iff, displayRow_val]; omega
  unfold spriteCovers
  split
  · rename_i h
    rw [hrow.mp h]
    simp [spriteBit]
  · rename_i h
    have : (r.val + 32 - y0) % 32 ≠ n := fun e => h (hrow.mpr e)
    have e : decide ((r.val + 32 - y0) % 32 < n + 1) = decide ((r.val + 32 - y0) % 32 < n) := by
      rw [Bool.eq_iff_iff]; simp; omega
    rw [e]

/-- The row a sprite's next row falls on is not covered by the rows before it. -/
theorem spriteCovers_next (rows : Nat → Byte) (x0 y0 n : Nat) (hy : y0 < 32) (hn : n < 32) (q : Fin 64) :
    spriteCovers rows x0 y0 n (displayRow (y0 + n)) q = false := by
  have : ¬ ((y0 + n) % 32 + 32 - y0) % 32 < n := by omega
  simp [spriteCovers, displayRow_val, this]

/-- Drawing flips exactly the pixels the sprite covers (R141). -/
theorem pixel_drawRows (rows : Nat → Byte) (x0 y0 n : Nat) (hy : y0 < 32) (hn : n ≤ 32) (c : Canvas) (r : Fin 32)
    (q : Fin 64) :
    pixel (drawRows rows x0 y0 n c).px r q = (pixel c.px r q ^^ spriteCovers rows x0 y0 n r q) := by
  induction n with
  | zero => simp [drawRows, spriteCovers]
  | succ n ih =>
    rw [drawRows, pixel_drawColumns, ih (by omega), spriteCovers_succ rows x0 y0 n hy (by omega)]
    split
    · rename_i h
      rw [h, spriteCovers_next rows x0 y0 n hy (by omega)]
      simp
    · rename_i h
      simp [h]

/-- Drawing collides exactly when the sprite covers a lit pixel (R141). -/
theorem hit_drawRows (rows : Nat → Byte) (x0 y0 n : Nat) (hy : y0 < 32) (hn : n ≤ 32) (c : Canvas) :
    (drawRows rows x0 y0 n c).hit = true ↔
      c.hit = true ∨ ∃ r q, spriteCovers rows x0 y0 n r q = true ∧ pixel c.px r q = true := by
  induction n with
  | zero => simp [drawRows, spriteCovers]
  | succ n ih =>
    rw [drawRows, hit_drawColumns, ih (by omega), or_assoc]
    refine or_congr_right ?_
    constructor
    · rintro (⟨r, q, h1, h2⟩ | ⟨q, h1, h2, h3, h4⟩)
      · refine ⟨r, q, ?_, h2⟩
        rw [spriteCovers_succ rows x0 y0 n hy (by omega), if_neg, h1]
        rintro rfl
        rw [spriteCovers_next rows x0 y0 n hy (by omega)] at h1
        exact Bool.false_ne_true h1
      · refine ⟨displayRow (y0 + n), q, ?_, ?_⟩
        · rw [spriteCovers_succ rows x0 y0 n hy (by omega), if_pos rfl]
          simp [h1, h2, h3]
        · rw [pixel_drawRows rows x0 y0 n hy (by omega), spriteCovers_next rows x0 y0 n hy (by omega)] at h4
          simpa using h4
    · rintro ⟨r, q, h1, h2⟩
      rw [spriteCovers_succ rows x0 y0 n hy (by omega)] at h1
      split at h1
      · rename_i hr
        subst hr
        simp only [Bool.and_eq_true, decide_eq_true_eq] at h1
        refine .inr ⟨q, h1.1.1, h1.1.2, h1.2, ?_⟩
        rw [pixel_drawRows rows x0 y0 n hy (by omega), spriteCovers_next rows x0 y0 n hy (by omega)]
        simpa using h2
      · exact .inl ⟨r, q, h1, h2⟩

/-- The 1 bits `Dxyn` draws, through the effective addresses its meaning reads (R136). -/
theorem drwCovers_eq (s : State) (x y : Reg) (n : Nibble) (r : Fin 32) (q : Fin 64) :
    spriteCovers (fun k => s.byteAt (s.ea k)) (spriteX (s.reg x)) (spriteY (s.reg y)) n.toNat r q =
      drwCovers s x y n r q := by
  simp [drwCovers, spriteX, spriteY]

theorem spriteY_lt (v : Byte) : spriteY v < 32 := Nat.mod_lt _ (by decide)

/-- The display `Dxyn` leaves (R141). -/
theorem pixel_drawn (s : State) (x y : Reg) (n : Nibble) (r : Fin 32) (q : Fin 64) :
    pixel (s.drawn x y n.toNat).px r q = (pixel s.px r q ^^ drwCovers s x y n r q) := by
  rw [State.drawn, pixel_drawRows _ _ _ _ (spriteY_lt _) (by omega), drwCovers_eq]

/-- The collision `Dxyn` reports (R141). -/
theorem hit_drawn (s : State) (x y : Reg) (n : Nibble) :
    (s.drawn x y n.toNat).hit = true ↔ ∃ r q, drwCovers s x y n r q = true ∧ pixel s.px r q = true := by
  rw [State.drawn, hit_drawRows _ _ _ _ (spriteY_lt _) (by omega)]
  simp only [drwCovers_eq, Bool.false_eq_true, false_or]

end Sys2Proof.Machine
end

