-- ==== Sys2Proof/Laws/PerInstr.lean ====
section
/-! SUPPORT. Statements about every instruction as syntax, one lemma per constructor. -/

namespace Sys2Proof.Laws.EncodingMatchesRow

open Sys2Proof.Machine

/-- The instruction's word matches the mask and match of its row of the opcode table (spec/30_encoding.md R81). -/
def Statement (i : Instr) : Prop := (opcodeRow i).covers (encode i) = true

theorem cls : Statement .cls := rfl
theorem ret : Statement .ret := rfl
theorem jp (nnn : Addr) : Statement (.jp nnn) := covers_formatA 0x1 nnn
theorem call (nnn : Addr) : Statement (.call nnn) := covers_formatA 0x2 nnn
theorem seImm (x : Reg) (nn : Byte) : Statement (.seImm x nn) := covers_formatXI_op 0x3 x nn
theorem sneImm (x : Reg) (nn : Byte) : Statement (.sneImm x nn) := covers_formatXI_op 0x4 x nn
theorem seReg (x y : Reg) : Statement (.seReg x y) := covers_formatXYN 0x5 x y 0x0
theorem ldImm (x : Reg) (nn : Byte) : Statement (.ldImm x nn) := covers_formatXI_op 0x6 x nn
theorem addImm (x : Reg) (nn : Byte) : Statement (.addImm x nn) := covers_formatXI_op 0x7 x nn
theorem ldReg (x y : Reg) : Statement (.ldReg x y) := covers_formatXYN 0x8 x y 0x0
theorem orReg (x y : Reg) : Statement (.orReg x y) := covers_formatXYN 0x8 x y 0x1
theorem andReg (x y : Reg) : Statement (.andReg x y) := covers_formatXYN 0x8 x y 0x2
theorem xorReg (x y : Reg) : Statement (.xorReg x y) := covers_formatXYN 0x8 x y 0x3
theorem addReg (x y : Reg) : Statement (.addReg x y) := covers_formatXYN 0x8 x y 0x4
theorem subReg (x y : Reg) : Statement (.subReg x y) := covers_formatXYN 0x8 x y 0x5
theorem shrReg (x y : Reg) : Statement (.shrReg x y) := covers_formatXYN 0x8 x y 0x6
theorem subnReg (x y : Reg) : Statement (.subnReg x y) := covers_formatXYN 0x8 x y 0x7
theorem shlReg (x y : Reg) : Statement (.shlReg x y) := covers_formatXYN 0x8 x y 0xE
theorem sneReg (x y : Reg) : Statement (.sneReg x y) := covers_formatXYN 0x9 x y 0x0
theorem ldI (nnn : Addr) : Statement (.ldI nnn) := covers_formatA 0xA nnn
theorem jpV0 (nnn : Addr) : Statement (.jpV0 nnn) := covers_formatA 0xB nnn
theorem rnd (x : Reg) (nn : Byte) : Statement (.rnd x nn) := covers_formatXI_op 0xC x nn
theorem drw (x y : Reg) (n : Nibble) : Statement (.drw x y n) := covers_formatXYN_op 0xD x y n
theorem skp (x : Reg) : Statement (.skp x) := covers_formatXI 0xE x 0x9E
theorem sknp (x : Reg) : Statement (.sknp x) := covers_formatXI 0xE x 0xA1
theorem ldVxDT (x : Reg) : Statement (.ldVxDT x) := covers_formatXI 0xF x 0x07
theorem ldVxK (x : Reg) : Statement (.ldVxK x) := covers_formatXI 0xF x 0x0A
theorem ldDTVx (x : Reg) : Statement (.ldDTVx x) := covers_formatXI 0xF x 0x15
theorem ldSTVx (x : Reg) : Statement (.ldSTVx x) := covers_formatXI 0xF x 0x18
theorem addIVx (x : Reg) : Statement (.addIVx x) := covers_formatXI 0xF x 0x1E
theorem ldFVx (x : Reg) : Statement (.ldFVx x) := covers_formatXI 0xF x 0x29
theorem ldBVx (x : Reg) : Statement (.ldBVx x) := covers_formatXI 0xF x 0x33
theorem storeRegs (x : Reg) : Statement (.storeRegs x) := covers_formatXI 0xF x 0x55
theorem loadRegs (x : Reg) : Statement (.loadRegs x) := covers_formatXI 0xF x 0x65

end Sys2Proof.Laws.EncodingMatchesRow
end

