-- ==== Sys2Proof/Laws/Session.lean ====
section
/-! SUPPORT. What a reset and a load change, what each move of the host does to a session, and what a move that goes through can have been. -/

namespace Sys2Proof.Machine

/-- A reset leaves State.reset but for memory, which it leaves in canonical form, the static inputs and the draw counter. -/
theorem hostReset_spec (s : State) :
    ∃ m, hostReset s = { State.reset with mem := m, cfg := s.cfg, draws := s.draws } ∧ m.wf = true := by
  obtain ⟨m, h, w⟩ := State.storeBytes_spec s.cfg.fontTable.toList State.reset 0x050
  exact ⟨m, by rw [hostReset, h], w rfl⟩

/-- A load that fails has an image that is too long; one that goes through changes memory alone and keeps its canonical
form. -/
theorem hostLoad_cases (image : List Byte) (s : State) :
    (3584 < image.length ∧ hostLoad image s = .error .programTooLarge) ∨
      (image.length ≤ 3584 ∧ ∃ m, hostLoad image s = .ok { s with mem := m } ∧ (s.mem.wf = true → m.wf = true)) := by
  obtain ⟨m, h, w⟩ := State.storeBytes_spec image s 0x200
  by_cases hl : image.length ≤ 3584
  · exact .inr ⟨hl, m, by simp [hostLoad, imageWellFormed, maxProgram, hl, h], w⟩
  · exact .inl ⟨by omega, by simp [hostLoad, imageWellFormed, maxProgram, hl]⟩

@[simp] theorem Session.move_created_reset (cfg : Config) :
    (Session.created cfg).move .reset = .next (.up .fresh (firstReset cfg), none) := rfl

theorem Session.move_created_of_ne {cfg : Config} {m : HostMove} (h : m ≠ .reset) :
    (Session.created cfg).move m = .refused .notReset := by
  cases m with
  | reset => exact absurd rfl h
  | load _ => rfl
  | step => rfl
  | setKeys _ => rfl

@[simp] theorem Session.move_reset (p : BootPhase) (s : State) :
    (Session.up p s).move .reset = .next (.up .fresh (hostReset s), none) := rfl

@[simp] theorem Session.move_setKeys (p : BootPhase) (s : State) (keys : Vector Bool 16) :
    (Session.up p s).move (.setKeys keys) = .next (.up p (hostSetKeys keys s), none) := rfl

theorem Session.move_step {s t : State} (p : BootPhase) (h : Machine.step s = .next t) :
    (Session.up p s).move .step = .next (.up .stepped t, none) := by
  simp [Session.move, Session.stepMove, h]

theorem Session.move_load_ok {image : List Byte} {s t : State} (h : hostLoad image s = .ok t) :
    (Session.up .fresh s).move (.load image) = .next (.up .loaded t, none) := by
  simp [Session.move, Session.loadMove, h]

theorem Session.move_load_error {image : List Byte} {s : State} {e : LoadError} (h : hostLoad image s = .error e) :
    (Session.up .fresh s).move (.load image) = .next (.up .fresh s, some e) := by
  simp [Session.move, Session.loadMove, h]

theorem Session.move_load_of_ne {p : BootPhase} (image : List Byte) (s : State) (h : p ≠ .fresh) :
    (Session.up p s).move (.load image) = .refused .loadNotAllowed := by
  cases p with
  | fresh => exact absurd rfl h
  | loaded => rfl
  | stepped => rfl

/-- Everything a move that goes through on a core that was reset can have been. -/
theorem Session.move_cases {p : BootPhase} {s : State} {m : HostMove} {w : Session} {e : Option LoadError}
    (h : (Session.up p s).move m = .next (w, e)) :
    (m = .reset ∧ w = .up .fresh (hostReset s) ∧ e = none) ∨
      (∃ image, m = .load image ∧ p = .fresh ∧
        ((∃ t, hostLoad image s = .ok t ∧ w = .up .loaded t ∧ e = none) ∨
          (∃ r, hostLoad image s = .error r ∧ w = .up .fresh s ∧ e = some r))) ∨
      (m = .step ∧ e = none ∧ ∃ t, Machine.step s = .next t ∧ w = .up .stepped t) ∨
      (∃ keys, m = .setKeys keys ∧ w = .up p (hostSetKeys keys s) ∧ e = none) := by
  cases m with
  | reset => cases h; exact .inl ⟨rfl, rfl, rfl⟩
  | load image =>
    refine .inr (.inl ⟨image, rfl, ?_⟩)
    by_cases hp : p = .fresh
    · subst hp
      refine ⟨rfl, ?_⟩
      cases hl : hostLoad image s with
      | ok t => rw [Session.move_load_ok hl] at h; cases h; exact .inl ⟨t, rfl, rfl, rfl⟩
      | error r => rw [Session.move_load_error hl] at h; cases h; exact .inr ⟨r, rfl, rfl, rfl⟩
    · rw [Session.move_load_of_ne image s hp] at h; cases h
  | step =>
    simp only [Session.move, Session.stepMove] at h
    cases hs : Machine.step s with
    | next t => rw [hs] at h; cases h; exact .inr (.inr (.inl ⟨rfl, rfl, t, rfl, rfl⟩))
    | fault f => rw [hs] at h; cases h
    | refused r => rw [hs] at h; cases h
  | setKeys keys => cases h; exact .inr (.inr (.inr ⟨keys, rfl, rfl, rfl⟩))

/-- A run of one more move goes through exactly when the move and the rest do. -/
theorem Session.run_cons {m : HostMove} {ms : List HostMove} {w z : Session} :
    Session.run (m :: ms) w = .next z ↔ ∃ v e, w.move m = .next (v, e) ∧ Session.run ms v = .next z := by
  simp only [Session.run]
  constructor
  · intro h
    split at h
    · rename_i v e hm; exact ⟨v, e, hm, h⟩
    · cases h
    · cases h
  · rintro ⟨v, e, hm, h⟩
    rw [hm]
    exact h

@[simp] theorem Session.run_nil (w : Session) : Session.run [] w = .next w := rfl

end Sys2Proof.Machine
end

