-- ==== Sys2Proof/Laws/Step.lean ====
section
/-! SUPPORT. What a step can do (spec/40_cycle.md R90), said once: an equation for each case, and the inversion of a step
that answers a next state. -/

namespace Sys2Proof.Machine

/-! ## The three meanings that branch on the state -/

/-- `00EE` pops, or takes StackUnderflow (R100). -/
theorem execRet_cases (s : State) :
    (∃ h : 0 < s.sp.val, execRet s =
        .next { s with sp := ⟨s.sp.val - 1, by omega⟩, pc := s.stackAt ⟨s.sp.val - 1, by omega⟩ }) ∨
      (s.sp.val = 0 ∧ execRet s = .next (s.raiseHere .stackUnderflow)) := by
  by_cases h : 0 < s.sp.val
  · exact .inl ⟨h, by simp only [execRet, State.pop_of_pos s h]; rfl⟩
  · exact .inr ⟨by omega, by simp only [execRet, State.pop_of_empty s h]⟩

/-- `2nnn` pushes and jumps, or takes StackOverflow (R102). -/
theorem execCall_cases (nnn : Addr) (s : State) :
    (∃ h : s.sp.val < 16, execCall nnn s =
        .next { s with stack := s.stack.set s.sp.val s.pc, sp := ⟨s.sp.val + 1, by omega⟩, pc := zext16 nnn }) ∨
      (s.sp.val = 16 ∧ execCall nnn s = .next (s.raiseHere .stackOverflow)) := by
  by_cases h : s.sp.val < 16
  · exact .inl ⟨h, by simp only [execCall, State.push_of_lt s _ h]; rfl⟩
  · exact .inr ⟨by omega, by simp only [execCall, State.push_of_full s _ h]⟩

/-- `Fx0A` takes the lowest pressed key, or steps back (R155). -/
theorem execLdVxK_cases (x : Reg) (s : State) :
    (∃ k, s.lowestKey = some k ∧ execLdVxK x s = .next (s.setReg x (byteOfKey k))) ∨
      ((∀ k, s.keyDown k = false) ∧ execLdVxK x s = .next (s.jump s.pc0)) := by
  unfold execLdVxK
  cases h : s.lowestKey with
  | some k => exact .inl ⟨k, rfl, rfl⟩
  | none => exact .inr ⟨State.lowestKey_none.mp h, rfl⟩

/-! ## One step -/

/-- What the bytes at pc decode to is what their word decodes to. -/
theorem decode_fetchBytes (s : State) :
    decode s.fetchBytes =
      match decodeWord s.fetchWord with
      | .ok i => .ok (i, [])
      | .error e => .error e := rfl

theorem step_of_halted {s : State} (h : s.halted = true) : step s = .next s := by
  simp [step, cycle, h]

theorem step_of_outOfBounds {s : State} (h : s.halted = false) (hb : s.fetchOutOfBounds = true) :
    step s = .next (s.raise .outOfBoundsFetch 0x0000#16 s.pc) := by
  simp [step, cycle, h, hb]

theorem step_of_unknown {s : State} {e : Reject} (h : s.halted = false) (hb : s.fetchOutOfBounds = false)
    (hd : decodeWord s.fetchWord = .error e) :
    step s = .next (if s.cfg.strictDecode then s.fetched.raiseHere .unknownOpcode else s.fetched.noOp) := by
  simp only [step, cycle, h, hb, decode_fetchBytes, hd]
  cases s.cfg.strictDecode <;> rfl

theorem step_of_decoded {s : State} {i : Instr} (h : s.halted = false) (hb : s.fetchOutOfBounds = false)
    (hd : decodeWord s.fetchWord = .ok i) :
    step s =
      match exec i s.fetched with
      | .next t => .next (t.finish s.px)
      | .fault f => .fault f
      | .refused r => .refused r := by
  simp only [step, cycle, h, hb, decode_fetchBytes, hd]
  rfl

/-- Everything a step that answers a next state can have done. -/
theorem step_cases {s t : State} (hs : step s = .next t) :
    (s.halted = true ∧ t = s) ∨
      (s.halted = false ∧ s.fetchOutOfBounds = true ∧ t = s.raise .outOfBoundsFetch 0x0000#16 s.pc) ∨
      (s.halted = false ∧ s.fetchOutOfBounds = false ∧ (∃ e, decodeWord s.fetchWord = .error e) ∧
        t = if s.cfg.strictDecode then s.fetched.raiseHere .unknownOpcode else s.fetched.noOp) ∨
      (s.halted = false ∧ s.fetchOutOfBounds = false ∧ ∃ i u, decodeWord s.fetchWord = .ok i ∧
        exec i s.fetched = .next u ∧ t = u.finish s.px) := by
  cases h : s.halted with
  | true =>
    rw [step_of_halted h] at hs
    cases hs
    exact .inl ⟨rfl, rfl⟩
  | false =>
    cases hb : s.fetchOutOfBounds with
    | true =>
      rw [step_of_outOfBounds h hb] at hs
      cases hs
      exact .inr (.inl ⟨rfl, rfl, rfl⟩)
    | false =>
      cases hd : decodeWord s.fetchWord with
      | error e =>
        rw [step_of_unknown h hb hd] at hs
        cases hs
        exact .inr (.inr (.inl ⟨rfl, rfl, ⟨e, rfl⟩, rfl⟩))
      | ok i =>
        rw [step_of_decoded h hb hd] at hs
        cases he : exec i s.fetched with
        | next u =>
          rw [he] at hs
          cases hs
          exact .inr (.inr (.inr ⟨rfl, rfl, i, u, rfl, he, rfl⟩))
        | fault f => rw [he] at hs; cases hs
        | refused r => rw [he] at hs; cases hs

/-! ## Placing an instruction -/

/-- The word placed at pc is the word a fetch at pc reads. -/
theorem fetchWord_withFetchWord (s : State) (nbits w : Nat) :
    (s.withFetchWord nbits w).fetchWord = tableWord nbits w := by
  have e : (s.withFetchWord nbits w).fetchWord =
      wordOfBytes ((tableWord nbits w).extractLsb' 8 8) ((tableWord nbits w).extractLsb' 0 8) := by
    have hpc : (s.withFetchWord nbits w).pc = s.pc := rfl
    unfold State.fetchWord
    rw [hpc]
    simp only [State.withFetchWord, State.placeTableWord, State.storeWord, State.byteAt_storeByte]
    rw [if_neg (by omega)]
    simp only [if_true]
  rw [e, wordOfBytes_extract]

end Sys2Proof.Machine
end

