-- ==== Sys2Proof/Tests/Slice0.lean ====
section
/-! SUPPORT. Tests of single steps against the vectors of spec/95_test_vectors.md, decoding of words written out bit by bit
from the encodings of spec/30_encoding.md R72 and R81, ill-formed terms for each check of WellFormed.lean, and a witness for
the hypotheses of each obligation. -/

namespace Sys2Proof.Tests

open Sys2Proof Sys2Proof.Machine

/-! ## Start states and what is looked at -/

/-- The state with registers set. -/
def regs (l : List (Reg × Byte)) (s : State) : State := l.foldl (fun t p => t.setReg p.1 p.2) s

/-- The state with bytes of memory set. -/
def bytes (l : List (Nat × Byte)) (s : State) : State := l.foldl (fun t p => t.storeByte p.1 p.2) s

/-- The state with pixels of an unlit display lit. -/
def lights (l : List (Fin 32 × Fin 64)) (s : State) : State :=
  { s with px := l.foldl (fun d p => flipPixel d p.1 p.2) s.px }

/-- The state with keys pressed. -/
def press (l : List Key) (s : State) : State := { s with key := l.foldl (fun k n => k.set n.val true) s.key }

/-- The state with the word placed at pc: the start states of the vectors. -/
def at_ (w : Nat) (s : State) : State := s.withFetchWord 16 w

/-- The machine after reset with `SHIFT_SOURCE = VY`. -/
def resetVY : State := { State.reset with cfg := { Config.default with shiftSource := .vy } }

/-- The machine after reset with `STRICT_DECODE = false`. -/
def resetLenient : State := { State.reset with cfg := { Config.default with strictDecode := false } }

/-- A projection of the next state of the step that runs the word. -/
def after {α : Type} (w : Nat) (s : State) (f : State → α) : Option α :=
  match step (at_ w s) with
  | .next t => some (f t)
  | _ => none

/-- A few pixels of a display. -/
def look (l : List (Fin 32 × Fin 64)) (d : Display) : List Bool := l.map fun p => pixel d p.1 p.2

/-- The fault record as the numbers the vectors give: cause code, opcode, address. -/
def faultOf (s : State) : Nat × Word × Word := (faultCode s.fault.cause, s.fault.opcode, s.fault.addr)

/-! ## Well-formedness: an ill-formed term for each check -/

/-- A font whose byte 50 is not `F0` (R6 `FONT_TABLE`). -/
def badFont : FontTable := defaultFont.set 50 0xF1#8

theorem test_wellFormed_default : Config.default.wellFormed = true := by decide

theorem test_wellFormed_refuses_font : badFont.wellFormed = false := by decide

/-- Each of the five bytes of glyph A is checked. -/
theorem test_wellFormed_refuses_each_glyph_byte :
    FontTable.wellFormed (defaultFont.set 51 0x00#8) = false ∧ FontTable.wellFormed (defaultFont.set 52 0x00#8) = false ∧
      FontTable.wellFormed (defaultFont.set 53 0x00#8) = false ∧
      FontTable.wellFormed (defaultFont.set 54 0x00#8) = false := by decide

theorem test_wellFormed_refuses_config : ({ Config.default with fontTable := badFont } : Config).wellFormed = false := by
  decide

/-- S8: 3585 bytes are too many, 3584 are not. -/
theorem test_wellFormed_refuses_image :
    imageWellFormed (List.replicate 3585 0xAA#8) = false ∧ imageWellFormed (List.replicate 3584 0xAA#8) = true := by
  simp only [imageWellFormed, maxProgram, List.length_replicate]
  decide

/-- No instruction is ill formed: every field admits all its values (R73). Here the largest ones. -/
theorem test_wellFormed_instr :
    (Instr.drw 15 15 0xF#4).wellFormed = true ∧ (Instr.jp 0xFFF#12).wellFormed = true ∧
      (Instr.seImm 15 0xFF#8).wellFormed = true := by decide

/-! ## Decoding: the two bytes of a word in memory order, bit by bit from the row of R81 and the format of R72 -/

theorem test_decode_cls : decode [0b00000000#8, 0b11100000#8] = .ok (.cls, []) := rfl
theorem test_decode_ret : decode [0b00000000#8, 0b11101110#8] = .ok (.ret, []) := rfl
theorem test_decode_jp : decode [0b00010010#8, 0b00110100#8] = .ok (.jp 0x234#12, []) := rfl
theorem test_decode_call : decode [0b00101010#8, 0b10111100#8] = .ok (.call 0xABC#12, []) := rfl
theorem test_decode_seImm : decode [0b00111010#8, 0b01000010#8] = .ok (.seImm 10 0x42#8, []) := rfl
theorem test_decode_sneImm : decode [0b01001010#8, 0b01000011#8] = .ok (.sneImm 10 0x43#8, []) := rfl
theorem test_decode_seReg : decode [0b01011010#8, 0b10110000#8] = .ok (.seReg 10 11, []) := rfl
theorem test_decode_ldImm : decode [0b01101010#8, 0b11111111#8] = .ok (.ldImm 10 0xFF#8, []) := rfl
theorem test_decode_addImm : decode [0b01111010#8, 0b00010000#8] = .ok (.addImm 10 0x10#8, []) := rfl
theorem test_decode_ldReg : decode [0b10000001#8, 0b00100000#8] = .ok (.ldReg 1 2, []) := rfl
theorem test_decode_orReg : decode [0b10000001#8, 0b00100001#8] = .ok (.orReg 1 2, []) := rfl
theorem test_decode_andReg : decode [0b10000001#8, 0b00100010#8] = .ok (.andReg 1 2, []) := rfl
theorem test_decode_xorReg : decode [0b10000001#8, 0b00100011#8] = .ok (.xorReg 1 2, []) := rfl
theorem test_decode_addReg : decode [0b10001010#8, 0b10110100#8] = .ok (.addReg 10 11, []) := rfl
theorem test_decode_subReg : decode [0b10000001#8, 0b00100101#8] = .ok (.subReg 1 2, []) := rfl
theorem test_decode_shrReg : decode [0b10000001#8, 0b00100110#8] = .ok (.shrReg 1 2, []) := rfl
theorem test_decode_subnReg : decode [0b10000001#8, 0b00100111#8] = .ok (.subnReg 1 2, []) := rfl
theorem test_decode_shlReg : decode [0b10000001#8, 0b00101110#8] = .ok (.shlReg 1 2, []) := rfl
theorem test_decode_sneReg : decode [0b10010001#8, 0b00100000#8] = .ok (.sneReg 1 2, []) := rfl
theorem test_decode_ldI : decode [0b10101111#8, 0b11111110#8] = .ok (.ldI 0xFFE#12, []) := rfl
theorem test_decode_jpV0 : decode [0b10110011#8, 0b00000001#8] = .ok (.jpV0 0x301#12, []) := rfl
theorem test_decode_rnd : decode [0b11000111#8, 0b11110000#8] = .ok (.rnd 7 0xF0#8, []) := rfl
theorem test_decode_drw : decode [0b11010001#8, 0b00101111#8] = .ok (.drw 1 2 0xF#4, []) := rfl
theorem test_decode_skp : decode [0b11100101#8, 0b10011110#8] = .ok (.skp 5, []) := rfl
theorem test_decode_sknp : decode [0b11100010#8, 0b10100001#8] = .ok (.sknp 2, []) := rfl
theorem test_decode_ldVxDT : decode [0b11110001#8, 0b00000111#8] = .ok (.ldVxDT 1, []) := rfl
theorem test_decode_ldVxK : decode [0b11110011#8, 0b00001010#8] = .ok (.ldVxK 3, []) := rfl
theorem test_decode_ldDTVx : decode [0b11110100#8, 0b00010101#8] = .ok (.ldDTVx 4, []) := rfl
theorem test_decode_ldSTVx : decode [0b11110110#8, 0b00011000#8] = .ok (.ldSTVx 6, []) := rfl
theorem test_decode_addIVx : decode [0b11110010#8, 0b00011110#8] = .ok (.addIVx 2, []) := rfl
theorem test_decode_ldFVx : decode [0b11110111#8, 0b00101001#8] = .ok (.ldFVx 7, []) := rfl
theorem test_decode_ldBVx : decode [0b11111000#8, 0b00110011#8] = .ok (.ldBVx 8, []) := rfl
theorem test_decode_storeRegs : decode [0b11111001#8, 0b01010101#8] = .ok (.storeRegs 9, []) := rfl
theorem test_decode_loadRegs : decode [0b11111010#8, 0b01100101#8] = .ok (.loadRegs 10, []) := rfl

/-- What the decoder says of a list of words: whether each is `Unknown` under its own value. -/
def allUnknown (l : List Word) : Bool := l.all fun w => decide (decodeWord w = .error (.unknown w))

/-- TE10, TF9, TF10: the low digit of `5xy0` and `9xy0` is checked. -/
theorem test_unknown_groups_5_and_9 : allUnknown [0x5AB1#16, 0x5AB8#16, 0x5121#16, 0x9AB7#16, 0x912F#16] = true := by decide

/-- TE11, TF5, TF7, TF8. -/
theorem test_unknown_group_0 :
    allUnknown [0x00EF#16, 0x01E0#16, 0x0000#16, 0x0FFF#16, 0x00E1#16, 0x0123#16] = true := by decide

/-- TE12. -/
theorem test_unknown_group_8 :
    allUnknown [0x8AB8#16, 0x8AB9#16, 0x8ABA#16, 0x8ABB#16, 0x8ABC#16, 0x8ABD#16, 0x8ABF#16] = true := by decide

/-- TE13, TF13, TF14. -/
theorem test_unknown_group_E :
    allUnknown [0xE59F#16, 0xE5A0#16, 0xE000#16, 0xE19D#16, 0xE19F#16, 0xE0A2#16] = true := by decide

/-- TE14, TF15 to TF17. -/
theorem test_unknown_group_F :
    allUnknown [0xF500#16, 0xF508#16, 0xF516#16, 0xF51F#16, 0xF530#16, 0xF554#16, 0xF566#16, 0xF5FF#16, 0xF000#16,
      0xF1FF#16, 0xF156#16] = true := by decide

/-- An instruction is exactly two bytes (R70). -/
theorem test_decode_truncated : decode [0x12#8] = .error .truncated ∧ decode [] = .error .truncated := ⟨rfl, rfl⟩

/-- The table numbers a word by its value: bit 0 is the least significant. -/
theorem test_decodeTableWord : decodeTableWord 16 0x8AB4 = some (.addReg 10 11) ∧ decodeTableWord 16 0x5AB1 = none := by
  decide

/-! ## One step of each instruction: the vector's identifier stands before each -/

/-- TD1. -/
theorem test_cls_clears :
    after 0x00E0 (lights [(0, 0), (31, 63)] State.reset)
      (fun t => (t.pc, t.drawFlag, look [(0, 0), (31, 63)] t.px)) =
      some (0x0202#16, true, [false, false]) := by decide

/-- TD2. -/
theorem test_cls_of_clear_display :
    after 0x00E0 State.reset (fun t => (t.pc, t.drawFlag, t.reg 15)) =
      some (0x0202#16, false, 0x00#8) := by decide

/-- TC8. -/
theorem test_ret_pops :
    after 0x00EE { State.reset with pc := 0x0300#16, sp := 2, stack := (State.reset.stack.set 0 0x0204#16).set 1 0x0456#16 }
      (fun t => (t.pc, t.sp.val, t.stackAt 1, faultOf t)) =
      some (0x0456#16, 1, 0x0456#16, 0, 0x0000#16, 0x0000#16) := by decide

/-- TC9. -/
theorem test_ret_underflows :
    after 0x00EE State.reset (fun t => (t.pc, t.sp.val, faultOf t)) =
      some (0x0202#16, 0, 4, 0x00EE#16, 0x0200#16) := by decide

/-- TC1. -/
theorem test_jp :
    after 0x1ABC State.reset (fun t => t.pc) =
      some 0x0ABC#16 := by decide

/-- TC4. -/
theorem test_jp_odd :
    after 0x1203 State.reset (fun t => t.pc) =
      some 0x0203#16 := by decide

/-- TC6. -/
theorem test_call_sixteenth_level :
    after 0x2300 { State.reset with sp := 15 } (fun t => (t.pc, t.sp.val, t.stackAt 15, t.halted)) =
      some (0x0300#16, 16, 0x0202#16, false) := by decide

/-- TC7; DT = 4 shows that no timer ticks. -/
theorem test_call_overflows :
    after 0x2300 { State.reset with sp := 16, DT := 4#8 }
      (fun t => (t.pc, t.sp.val, t.DT, faultOf t)) =
      some (0x0202#16, 16, 4#8, 3, 0x2300#16, 0x0200#16) := by decide

/-- TC10. -/
theorem test_seImm_taken :
    after 0x3A42 (regs [(10, 0x42#8)] State.reset) (fun t => t.pc) =
      some 0x0204#16 := by decide

/-- TC11. -/
theorem test_seImm_not_taken :
    after 0x3A42 (regs [(10, 0x43#8)] State.reset) (fun t => t.pc) =
      some 0x0202#16 := by decide

/-- TC12. -/
theorem test_sneImm_not_taken :
    after 0x4A42 (regs [(10, 0x42#8)] State.reset) (fun t => t.pc) =
      some 0x0202#16 := by decide

/-- TC13. -/
theorem test_sneImm_taken :
    after 0x4A42 (regs [(10, 0x43#8)] State.reset) (fun t => t.pc) =
      some 0x0204#16 := by decide

/-- TC14. -/
theorem test_seReg_taken :
    after 0x5120 (regs [(1, 9#8), (2, 9#8)] State.reset) (fun t => t.pc) =
      some 0x0204#16 := by decide

/-- TC15. -/
theorem test_seReg_not_taken :
    after 0x5120 (regs [(1, 9#8), (2, 8#8)] State.reset) (fun t => t.pc) =
      some 0x0202#16 := by decide

/-- TA1. -/
theorem test_ldImm :
    after 0x6AFF State.reset (fun t => (t.pc, t.reg 10, t.currentOpcode)) =
      some (0x0202#16, 0xFF#8, 0x6AFF#16) := by decide

/-- TA2. -/
theorem test_ldImm_VF :
    after 0x6F07 State.reset (fun t => t.reg 15) =
      some 0x07#8 := by decide

/-- TA3. -/
theorem test_addImm_wraps :
    after 0x7A01 (regs [(10, 0xFF#8)] State.reset) (fun t => (t.reg 10, t.reg 15)) =
      some (0x00#8, 0x00#8) := by decide

/-- TA4. -/
theorem test_addImm_keeps_VF :
    after 0x7A10 (regs [(10, 0x20#8), (15, 1#8)] State.reset) (fun t => (t.reg 10, t.reg 15)) =
      some (0x30#8, 0x01#8) := by decide

/-- TA6. -/
theorem test_ldReg :
    after 0x8120 (regs [(1, 0x01#8), (2, 0x99#8)] State.reset) (fun t => (t.reg 1, t.reg 2)) =
      some (0x99#8, 0x99#8) := by decide

/-- TA7. -/
theorem test_orReg :
    after 0x8121 (regs [(1, 0xF0#8), (2, 0x0F#8), (15, 0x55#8)] State.reset)
      (fun t => (t.reg 1, t.reg 15)) =
      some (0xFF#8, 0x55#8) := by decide

/-- TA8. -/
theorem test_andReg :
    after 0x8122 (regs [(1, 0xF3#8), (2, 0x3F#8), (15, 0x55#8)] State.reset)
      (fun t => (t.reg 1, t.reg 15)) =
      some (0x33#8, 0x55#8) := by decide

/-- TA9. -/
theorem test_xorReg :
    after 0x8123 (regs [(1, 0xFF#8), (2, 0x0F#8), (15, 0x55#8)] State.reset)
      (fun t => (t.reg 1, t.reg 15)) =
      some (0xF0#8, 0x55#8) := by decide

/-- TA10. -/
theorem test_xorReg_same :
    after 0x8113 (regs [(1, 0xAB#8)] State.reset) (fun t => t.reg 1) =
      some 0x00#8 := by decide

/-- TA11, TA12. -/
theorem test_addReg_carry_boundary :
    after 0x8124 (regs [(1, 0xF0#8), (2, 0x0F#8), (15, 1#8)] State.reset)
      (fun t => (t.reg 1, t.reg 15)) =
      some (0xFF#8, 0x00#8) ∧
    after 0x8124 (regs [(1, 0xF0#8), (2, 0x10#8)] State.reset) (fun t => (t.reg 1, t.reg 15)) =
      some (0x00#8, 0x01#8) := by decide

/-- TA15, TA16. -/
theorem test_addReg_VF :
    after 0x8F14 (regs [(15, 0xC8#8), (1, 0x64#8)] State.reset) (fun t => t.reg 15) =
      some 0x2C#8 ∧
    after 0x81F4 (regs [(1, 0xFF#8), (15, 2#8)] State.reset) (fun t => (t.reg 1, t.reg 15)) =
      some (0x01#8, 0x01#8) := by decide

/-- TA19, TA20. -/
theorem test_subReg_borrow :
    after 0x8125 (regs [(1, 3#8), (2, 5#8), (15, 1#8)] State.reset) (fun t => (t.reg 1, t.reg 15)) =
      some (0xFE#8, 0x00#8) ∧
    after 0x8125 (regs [(1, 7#8), (2, 7#8), (15, 1#8)] State.reset) (fun t => (t.reg 1, t.reg 15)) =
      some (0x00#8, 0x00#8) := by decide

/-- TA18, TA21. -/
theorem test_subReg_greater :
    after 0x8125 (regs [(1, 5#8), (2, 3#8)] State.reset) (fun t => (t.reg 1, t.reg 15)) =
      some (0x02#8, 0x01#8) ∧
    after 0x8F15 (regs [(15, 9#8), (1, 4#8)] State.reset) (fun t => t.reg 15) =
      some 0x05#8 := by decide

/-- TA26, TA29. -/
theorem test_shrReg_VX :
    after 0x8126 (regs [(1, 0x05#8), (2, 0xFE#8)] State.reset) (fun t => (t.reg 1, t.reg 15)) =
      some (0x02#8, 0x01#8) ∧
    after 0x8F06 (regs [(15, 0x03#8)] State.reset) (fun t => t.reg 15) =
      some 0x01#8 := by decide

/-- TA28. -/
theorem test_shrReg_VY :
    after 0x8126 (regs [(1, 0x05#8), (2, 0xFE#8), (15, 1#8)] resetVY)
      (fun t => (t.reg 1, t.reg 2, t.reg 15)) =
      some (0x7F#8, 0xFE#8, 0x00#8) := by decide

/-- TA23. -/
theorem test_subnReg_greater :
    after 0x8127 (regs [(1, 3#8), (2, 5#8)] State.reset) (fun t => (t.reg 1, t.reg 15)) =
      some (0x02#8, 0x01#8) := by decide

/-- TA24, TA25. -/
theorem test_subnReg_borrow :
    after 0x8127 (regs [(1, 5#8), (2, 3#8), (15, 1#8)] State.reset) (fun t => (t.reg 1, t.reg 15)) =
      some (0xFE#8, 0x00#8) ∧
    after 0x8127 (regs [(1, 7#8), (2, 7#8), (15, 1#8)] State.reset) (fun t => (t.reg 1, t.reg 15)) =
      some (0x00#8, 0x00#8) := by decide

/-- TA31, TA34. -/
theorem test_shlReg_VX :
    after 0x812E (regs [(1, 0x81#8), (2, 0x01#8)] State.reset) (fun t => (t.reg 1, t.reg 15)) =
      some (0x02#8, 0x01#8) ∧
    after 0x8F0E (regs [(15, 0xC0#8)] State.reset) (fun t => t.reg 15) =
      some 0x80#8 := by decide

/-- TA33. -/
theorem test_shlReg_VY :
    after 0x812E (regs [(1, 0x41#8), (2, 0x81#8)] resetVY) (fun t => (t.reg 1, t.reg 2, t.reg 15)) =
      some (0x02#8, 0x81#8, 0x01#8) := by decide

/-- TC17. -/
theorem test_sneReg_taken :
    after 0x9120 (regs [(1, 9#8), (2, 8#8)] State.reset) (fun t => t.pc) =
      some 0x0204#16 := by decide

/-- TC18. -/
theorem test_sneReg_not_taken :
    after 0x9120 (regs [(1, 9#8), (2, 9#8)] State.reset) (fun t => t.pc) =
      some 0x0202#16 := by decide

/-- TM1. -/
theorem test_ldI :
    after 0xAFFF State.reset (fun t => (t.pc, t.I)) =
      some (0x0202#16, 0x0FFF#16) := by decide

/-- TC21. -/
theorem test_jpV0 :
    after 0xBFFF (regs [(0, 0xFF#8)] State.reset) (fun t => t.pc) =
      some 0x10FE#16 := by decide

/-- TC22. -/
theorem test_jpV0_not_Vx :
    after 0xB123 (regs [(1, 0x50#8)] State.reset) (fun t => t.pc) =
      some 0x0123#16 := by decide

/-- TA35, with the draw 0xA7 in the place of the free one. -/
theorem test_rnd_masks :
    (State.reset.randomInto 0xA7#8 1 0x0F#8).reg 1 = 0x07#8 := by decide

/-- TA36 and S7: the mask 0 gives 0 whatever the draw. -/
theorem test_rnd_zero_mask :
    after 0xC100 (regs [(1, 0x77#8)] State.reset) (fun t => (t.pc, t.draws)) =
      some (0x0202#16, 1) ∧
    ((regs [(1, 0x77#8)] State.reset).randomInto 0xFF#8 1 0x00#8).reg 1 = 0x00#8 := by decide

/-- TD3, TD4. -/
theorem test_drw_glyph :
    after 0xD015 { State.reset with I := 0x0082#16 }
      (fun t => (t.reg 15, look [(0, 0), (0, 3), (0, 4), (1, 0), (1, 1), (1, 3), (4, 3), (5, 0)] t.px)) =
      some (0x00#8, [true, true, false, true, false, true, true, false]) ∧
    after 0xD015 (lights [(0, 0)] { State.reset with I := 0x0082#16 })
      (fun t => (t.reg 15, look [(0, 0), (0, 1)] t.px)) =
      some (0x01#8, [false, true]) := by decide

/-- TD6, TD7, TD12: columns are dropped, rows and sprite addresses wrap. -/
theorem test_drw_edges :
    after 0xD011 (lights [(5, 0), (5, 3)] (bytes [(0x300, 0x0F#8)] (regs [(0, 60#8), (1, 5#8)] { State.reset with I := 0x0300#16 })))
      (fun t => (t.reg 15, t.drawFlag, look [(5, 0), (5, 60), (5, 63)] t.px)) =
      some (0x00#8, false, [true, false, false]) ∧
    after 0xD012 (bytes [(0x300, 0x80#8), (0x301, 0x80#8)] (regs [(1, 31#8)] { State.reset with I := 0x0300#16 }))
      (fun t => (look [(31, 0), (0, 0)] t.px)) =
      some [true, true] ∧
    after 0xD012 (bytes [(0xFFF, 0x80#8), (0x000, 0x40#8)] { State.reset with I := 0x0FFF#16 })
      (fun t => (look [(0, 0), (1, 1), (1, 0)] t.px)) =
      some [true, true, false] := by decide

/-- TK8, TK9. -/
theorem test_skp :
    after 0xE29E (press [7] (regs [(2, 7#8)] State.reset)) (fun t => t.pc) =
      some 0x0204#16 ∧
    after 0xE29E (press [8] (regs [(2, 7#8)] State.reset)) (fun t => t.pc) =
      some 0x0202#16 := by decide

/-- TK10. -/
theorem test_skp_low_bits :
    after 0xE29E (press [7] (regs [(2, 0x17#8)] State.reset)) (fun t => t.pc) =
      some 0x0204#16 := by decide

/-- TK11. -/
theorem test_sknp_taken :
    after 0xE2A1 (regs [(2, 7#8)] State.reset) (fun t => t.pc) =
      some 0x0204#16 := by decide

/-- TK12. -/
theorem test_sknp_not_taken :
    after 0xE2A1 (press [7] (regs [(2, 7#8)] State.reset)) (fun t => t.pc) =
      some 0x0202#16 := by decide

/-- TK1. -/
theorem test_ldVxDT :
    after 0xF107 { State.reset with DT := 2#8 } (fun t => (t.pc, t.DT, t.reg 1)) =
      some (0x0202#16, 1#8, 0x02#8) := by decide

/-- TK13. -/
theorem test_ldVxK_waits :
    after 0xF30A { State.reset with DT := 5#8, ST := 1#8 }
      (fun t => (t.pc, t.DT, t.ST, t.reg 3, t.currentOpcode)) =
      some (0x0200#16, 4#8, 0#8, 0x00#8, 0xF30A#16) := by decide

/-- TK14. -/
theorem test_ldVxK_lowest :
    after 0xF30A (press [4, 9, 12] State.reset) (fun t => (t.pc, t.reg 3)) =
      some (0x0202#16, 0x04#8) := by decide

/-- TK3, TK4. -/
theorem test_ldDTVx :
    after 0xF015 (regs [(0, 3#8)] State.reset) (fun t => (t.pc, t.DT)) =
      some (0x0202#16, 2#8) ∧
    after 0xF015 (regs [(0, 1#8)] State.reset) (fun t => t.DT) =
      some 0#8 := by decide

/-- TK5. -/
theorem test_ldDTVx_zero :
    after 0xF015 { State.reset with DT := 9#8 } (fun t => t.DT) =
      some 0#8 := by decide

/-- TK7. -/
theorem test_ldSTVx :
    after 0xF018 (regs [(0, 255#8)] { State.reset with DT := 1#8 }) (fun t => (t.pc, t.DT, t.ST)) =
      some (0x0202#16, 0#8, 254#8) := by decide

/-- TM4. -/
theorem test_addIVx :
    after 0xF21E (regs [(2, 0xFF#8), (15, 0x33#8)] { State.reset with I := 0x0F80#16 })
      (fun t => (t.pc, t.I, t.reg 15)) =
      some (0x0202#16, 0x007F#16, 0x33#8) := by decide

/-- TM3. -/
theorem test_addIVx_wraps :
    after 0xF21E (regs [(2, 0x01#8)] { State.reset with I := 0x0FFF#16 })
      (fun t => (t.I, t.reg 15)) =
      some (0x0000#16, 0x00#8) := by decide

/-- TM5, S6. -/
theorem test_ldFVx :
    after 0xF029 (regs [(0, 0x0A#8)] State.reset) (fun t => (t.pc, t.I)) =
      some (0x0202#16, 0x0082#16) := by decide

/-- TM9. -/
theorem test_ldFVx_not_masked :
    after 0xF029 (regs [(0, 0xFF#8)] State.reset) (fun t => t.I) =
      some 0x054B#16 := by decide

/-- TM10. -/
theorem test_ldBVx :
    after 0xF033 (regs [(0, 0xFE#8)] { State.reset with I := 0x0300#16 })
      (fun t => (t.pc, t.byteAt 0x300, t.byteAt 0x301, t.byteAt 0x302, t.byteAt 0x303)) =
      some (0x0202#16, 0x02#8, 0x05#8, 0x04#8, 0x00#8) := by decide

/-- TM13. -/
theorem test_ldBVx_wraps :
    after 0xF033 (regs [(0, 0xFF#8)] { State.reset with I := 0x0FFE#16 })
      (fun t => (t.byteAt 0xFFE, t.byteAt 0xFFF, t.byteAt 0x000)) =
      some (0x02#8, 0x05#8, 0x05#8) := by decide

/-- TM14. -/
theorem test_storeRegs :
    after 0xF255 (regs [(0, 0x11#8), (1, 0x22#8), (2, 0x33#8), (3, 0x44#8)] { State.reset with I := 0x0400#16 })
      (fun t => (t.pc, t.I, t.byteAt 0x400, t.byteAt 0x401, t.byteAt 0x402, t.byteAt 0x403)) =
      some (0x0202#16, 0x0400#16, 0x11#8, 0x22#8, 0x33#8, 0x00#8) := by decide

/-- TM16. -/
theorem test_storeRegs_wraps :
    after 0xF155 (regs [(0, 0xAA#8), (1, 0xBB#8)] { State.reset with I := 0x0FFF#16 })
      (fun t => (t.byteAt 0xFFF, t.byteAt 0x000)) =
      some (0xAA#8, 0xBB#8) := by decide

/-- TM18. -/
theorem test_loadRegs :
    after 0xF265 (bytes [(0x300, 0x02#8), (0x301, 0x05#8), (0x302, 0x04#8), (0x303, 0x09#8)] (regs [(3, 0x77#8)]
      { State.reset with I := 0x0300#16 }))
      (fun t => (t.pc, t.I, t.reg 0, t.reg 1, t.reg 2, t.reg 3)) =
      some (0x0202#16, 0x0300#16, 0x02#8, 0x05#8, 0x04#8, 0x77#8) := by decide

/-- TM20, the last registers. -/
theorem test_loadRegs_all :
    after 0xFF65 { State.reset with I := 0x0050#16 }
      (fun t => (t.reg 0, t.reg 5, t.reg 10, t.reg 14, t.reg 15)) =
      some (0xF0#8, 0x20#8, 0xF0#8, 0xF0#8, 0xF0#8) := by decide

/-! ## Fetch, decode, faults and the halt -/

/-- TF1. -/
theorem test_fetch_last_address :
    after 0x6A01 { State.reset with pc := 0x0FFE#16, DT := 4#8 }
      (fun t => (t.pc, t.DT, t.reg 10, t.halted)) =
      some (0x1000#16, 3#8, 0x01#8, false) := by decide

/-- TF4. -/
theorem test_fetch_odd :
    (match step (bytes [(0x201, 0x6A#8), (0x202, 0x33#8)] { State.reset with pc := 0x0201#16 }) with
      | .next t => some (t.pc, t.reg 10)
      | _ => none) = some (0x0203#16, 0x33#8) := by decide

/-- TF2, TF3. -/
theorem test_fetch_out_of_bounds :
    (match step { State.reset with pc := 0x1000#16, DT := 4#8, currentOpcode := 0x1234#16 } with
      | .next t => some (t.pc, t.DT, t.currentOpcode, faultOf t)
      | _ => none) = some (0x1000#16, 4#8, 0x1234#16, 1, 0x0000#16, 0x1000#16) ∧
    (match step (bytes [(0xFFF, 0x60#8)] { State.reset with pc := 0x0FFF#16 }) with
      | .next t => some (t.pc, faultOf t)
      | _ => none) = some (0x0FFF#16, 1, 0x0000#16, 0x0FFF#16) := by decide

/-- TF5. -/
theorem test_unknown_strict :
    after 0x0000 { State.reset with DT := 4#8 } (fun t => (t.pc, t.DT, t.currentOpcode, faultOf t)) =
      some (0x0202#16, 4#8, 0x0000#16, 2, 0x0000#16, 0x0200#16) := by decide

/-- TF6. -/
theorem test_unknown_lenient :
    after 0x0000 { resetLenient with DT := 4#8 } (fun t => (t.pc, t.DT, t.drawFlag, faultOf t)) =
      some (0x0202#16, 3#8, false, 0, 0x0000#16, 0x0000#16) := by decide

/-- TC23. -/
theorem test_skipped_word_is_not_examined :
    after 0x3000 (bytes [(0x202, 0xFF#8), (0x203, 0xFF#8)] State.reset) (fun t => (t.pc, t.halted)) =
      some (0x0204#16, false) := by decide

/-- TM17: the next fetch reads the word stored (R62). -/
theorem test_store_reaches_next_fetch :
    after 0xF155 (regs [(0, 0x12#8), (1, 0x34#8)] { State.reset with I := 0x0202#16 })
      (fun t => t.fetchWord) =
      some 0x1234#16 := by decide

/-- TF18: the step of a halted core changes nothing. -/
theorem test_halted_core_stays :
    step (at_ 0x6A01 { State.reset with fault := ⟨some .unknownOpcode, 0xFFFF#16, 0x01FE#16⟩, DT := 4#8 }) =
      .next (at_ 0x6A01 { State.reset with fault := ⟨some .unknownOpcode, 0xFFFF#16, 0x01FE#16⟩, DT := 4#8 }) := rfl

/-! ## Reset and load -/

/-- TR1: the font and the bytes around it after reset. -/
theorem test_reset_memory :
    [0x04F, 0x050, 0x082, 0x083, 0x084, 0x085, 0x086, 0x09F, 0x0A0, 0x200].map State.reset.byteAt =
      [0x00#8, 0xF0#8, 0xF0#8, 0x90#8, 0xF0#8, 0x90#8, 0x90#8, 0x80#8, 0x00#8, 0x00#8] := by decide

/-- TR6: a reset of a halted core with a full stack and a program. -/
theorem test_hostReset :
    (fun t : State => (faultCode t.fault.cause, t.sp.val, t.pc, t.byteAt 0x200, t.byteAt 0x082))
        (hostReset (bytes [(0x200, 0x23#8)]
          { State.reset with fault := ⟨some .stackOverflow, 0x2300#16, 0x0200#16⟩, sp := 16, pc := 0x0202#16 })) =
      (0, 0, 0x0200#16, 0x00#8, 0xF0#8) := by
  set_option maxRecDepth 20000 in decide

/-- TR2: the bytes of a loaded image. -/
theorem test_hostLoad :
    (match hostLoad [0x12#8, 0x00#8] State.reset with
      | .ok t => some (t.byteAt 0x200, t.byteAt 0x201, t.pc, t.mem)
      | .error _ => none) = some (0x12#8, 0x00#8, 0x0200#16, [(0x200, 0x12#8)]) := by decide

/-- TR3, TR4, S8. -/
theorem test_hostLoad_boundary :
    (∃ t, hostLoad (List.replicate 3584 0xAA#8) State.reset = .ok t) ∧
      hostLoad (List.replicate 3585 0xAA#8) State.reset = .error .programTooLarge := by
  simp only [hostLoad, imageWellFormed, maxProgram, List.length_replicate]
  exact ⟨⟨_, rfl⟩, rfl⟩
/-! ## The host's moves in order (R183, R184) -/

/-- R183: a load after the first step, and a second load, are moves the host does not have. -/
theorem test_session_refuses_late_load :
    (Session.up .stepped State.reset).move (.load [0x12#8, 0x00#8]) = .refused .loadNotAllowed ∧
      (Session.up .loaded State.reset).move (.load [0x12#8, 0x00#8]) = .refused .loadNotAllowed := ⟨rfl, rfl⟩

/-- R181: before the first reset there is no step and no load. -/
theorem test_session_refuses_before_reset :
    (Session.created Config.default).move .step = .refused .notReset ∧
      (Session.created Config.default).move (.load []) = .refused .notReset := ⟨rfl, rfl⟩

/-- The words `F20A E29E` of program P4 alone: a step that waits, then keys 7 and 9 go down, and the next two steps take key 7
and skip. -/
theorem test_session_keys_between_steps :
    (match Session.run [.load [0xF2#8, 0x0A#8, 0xE2#8, 0x9E#8], .step, .setKeys (press [7, 9] State.reset).key, .step, .step]
        (.up .fresh State.reset) with
      | .next (.up p t) => some (p, t.pc, t.reg 2, t.currentOpcode)
      | _ => none) = some (.stepped, 0x0206#16, 0x07#8, 0xE29E#16) := by decide

/-! ## Witnesses: for each obligation with hypotheses, a state and operands that meet all of them -/

/-- A register file with two registers that differ, `I` in free memory, and the rest as after reset. -/
def sample : State := regs [(1, 0x05#8), (2, 0x03#8)] { State.reset with I := 0x0300#16 }

/-- The core halted by a fault. -/
def stopped : State := { State.reset with fault := ⟨some .stackUnderflow, 0x00EE#16, 0x0200#16⟩ }

/-- The start of a step that calls at the last level. -/
def deep (n : Fin 17) : State := { State.reset with sp := n }

theorem witness_EncodeOfDecodeIsTheWord : decodeWord 0xD12F#16 = .ok (.drw 1 2 0xF#4) := rfl

/-- A word of the row, and one that differs in a fixed digit. -/
theorem witness_DecodeSelectsTheMatchingRow :
    (opcodeRow (.addReg 0 0)).covers 0x8AB4#16 = true ∧ (opcodeRow (.addReg 0 0)).covers 0x8AB8#16 = false := by decide

/-- The last word of each set and the legal word beside it. -/
theorem witness_IllegalWordsAreUnknown :
    allUnknown [0x0FFF#16, 0x00ED#16, 0x5FFF#16, 0x9FFF#16, 0x8FFF#16, 0x8FFD#16, 0xEFFF#16, 0xFFFF#16] = true ∧
      decodeWord 0x00EE#16 = .ok .ret ∧ decodeWord 0x5FF0#16 = .ok (.seReg 15 15) ∧
      decodeWord 0x8FFE#16 = .ok (.shlReg 15 15) ∧ decodeWord 0xEFA1#16 = .ok (.sknp 15) ∧
      decodeWord 0xFF65#16 = .ok (.loadRegs 15) := by decide

theorem witness_StepRunsTheDecodedInstruction : Fetches (at_ 0x8124 sample) (.addReg 1 2) := ⟨rfl, by decide, rfl⟩

/-- The last pc that fetches, and the first that does not. -/
theorem witness_FetchReadsTwoBytesBigEndian :
    sample.halted = false ∧ ({ sample with pc := 0x0FFE#16 } : State).pc.toNat + 1 < 4096 ∧
      4096 ≤ ({ sample with pc := 0x0FFF#16 } : State).pc.toNat + 1 := by decide

theorem witness_HaltedCoreNeverMoves : stopped.halted = true := rfl

/-- A step that faults and one that does not. -/
theorem witness_SafeRunIsARunThatEndsUnhalted :
    runsSafely 1 (at_ 0x1200 State.reset) = true ∧ runsSafely 1 State.reset = false := by decide

/-- Every row of the table of causes, with no fault at the boundaries 4094 of pc, 15 and 1 of sp. -/
theorem witness_StepRaisesExactlyTheTabledFault :
    sample.halted = false ∧ raisedFault (at_ 0x6A01 { sample with pc := 0x0FFE#16 }) = none ∧
      raisedFault { sample with pc := 0x0FFF#16 } = some .outOfBoundsFetch ∧
      raisedFault (at_ 0x0000 sample) = some .unknownOpcode ∧ raisedFault (at_ 0x0000 resetLenient) = none ∧
      raisedFault (at_ 0x2300 (deep 16)) = some .stackOverflow ∧ raisedFault (at_ 0x2300 (deep 15)) = none ∧
      raisedFault (at_ 0x00EE (deep 0)) = some .stackUnderflow ∧ raisedFault (at_ 0x00EE (deep 1)) = none := by decide

theorem witness_LenientUnknownWordIsANoOp :
    resetLenient.halted = false ∧ resetLenient.pc.toNat + 1 < 4096 ∧ resetLenient.cfg.strictDecode = false ∧
      ∀ i, ¬ Fetches resetLenient i := by
  refine ⟨rfl, by decide, rfl, fun i h => ?_⟩
  have e : decodeWord (wordOfBytes (resetLenient.byteAt resetLenient.pc.toNat)
      (resetLenient.byteAt (resetLenient.pc.toNat + 1))) = .error (.unknown 0x0000#16) := rfl
  exact nomatch e.symm.trans h.2.2

/-- A step that sets `DT`, one that sets `ST`, and a waiting `Fx0A`. -/
theorem witness_TimersTickOnceInEveryCompletedStep :
    (∃ t, step (at_ 0xF115 sample) = .next t ∧ t.halted = false ∧ fetchedInstr (at_ 0xF115 sample) = some (.ldDTVx 1)) ∧
      (∃ t, step (at_ 0xF118 sample) = .next t ∧ t.halted = false ∧ fetchedInstr (at_ 0xF118 sample) = some (.ldSTVx 1)) ∧
      ∃ t, step (at_ 0xF10A sample) = .next t ∧ t.halted = false ∧ fetchedInstr (at_ 0xF10A sample) = some (.ldVxK 1) :=
  ⟨⟨_, rfl, rfl, rfl⟩, ⟨_, rfl, rfl, rfl⟩, ⟨_, rfl, rfl, rfl⟩⟩

/-- A step that changes a pixel and one that does not. -/
theorem witness_DrawFlagTellsWhetherAPixelChanged :
    (∃ t, step (at_ 0x00E0 (lights [(0, 0)] State.reset)) = .next t ∧ t.halted = false ∧ t.drawFlag = true) ∧
      ∃ t, step (at_ 0x00E0 State.reset) = .next t ∧ t.halted = false ∧ t.drawFlag = false :=
  ⟨⟨_, rfl, rfl, by decide⟩, ⟨_, rfl, rfl, by decide⟩⟩

theorem witness_PlainInstructionsAdvanceByTwo :
    Fetches (at_ 0x8124 sample) (.addReg 1 2) ∧ Element.programCounter ∉ executeWrites (.addReg 1 2) :=
  ⟨⟨rfl, by decide, rfl⟩, by decide⟩

/-- Each of the six skips, taken and not taken. -/
theorem witness_TakenSkipAdvancesByFour :
    (Fetches (at_ 0x3105 sample) (.seImm 1 0x05#8) ∧ skipCondition (at_ 0x3105 sample) (.seImm 1 0x05#8) = some true) ∧
      (Fetches (at_ 0x4105 sample) (.sneImm 1 0x05#8) ∧
        skipCondition (at_ 0x4105 sample) (.sneImm 1 0x05#8) = some false) ∧
      (Fetches (at_ 0x5120 sample) (.seReg 1 2) ∧ skipCondition (at_ 0x5120 sample) (.seReg 1 2) = some false) ∧
      (Fetches (at_ 0x9120 sample) (.sneReg 1 2) ∧ skipCondition (at_ 0x9120 sample) (.sneReg 1 2) = some true) ∧
      (Fetches (at_ 0xE19E sample) (.skp 1) ∧ skipCondition (at_ 0xE19E sample) (.skp 1) = some false) ∧
      (Fetches (at_ 0xE1A1 sample) (.sknp 1) ∧ skipCondition (at_ 0xE1A1 sample) (.sknp 1) = some true) :=
  ⟨⟨⟨rfl, by decide, rfl⟩, rfl⟩, ⟨⟨rfl, by decide, rfl⟩, rfl⟩, ⟨⟨rfl, by decide, rfl⟩, rfl⟩,
    ⟨⟨rfl, by decide, rfl⟩, rfl⟩, ⟨⟨rfl, by decide, rfl⟩, rfl⟩, ⟨⟨rfl, by decide, rfl⟩, rfl⟩⟩

theorem witness_ExecuteChangesOnlyItsElements : ∃ t, exec (.addReg 1 2) sample = .next t := ⟨_, rfl⟩

theorem witness_ExecuteWritesOnlyItsRegisters :
    ∃ t, exec (.addReg 1 2) sample = .next t ∧ writesReg (.addReg 1 2) 3 = false ∧ writesReg (.addReg 1 2) 15 = true :=
  ⟨_, rfl, rfl, rfl⟩

theorem witness_StepNeverWritesKeypadOrConfiguration : ∃ t, step (at_ 0x8124 sample) = .next t := ⟨_, rfl⟩

/-- A byte that `Fx33` changes and one that `Fx55` changes. -/
theorem witness_OnlyBcdAndRegisterStoreChangeMemory :
    (∃ t, step (at_ 0xF133 sample) = .next t ∧ t.byteAt 0x302 ≠ (at_ 0xF133 sample).byteAt 0x302) ∧
      ∃ t, step (at_ 0xF155 sample) = .next t ∧ t.byteAt 0x301 ≠ (at_ 0xF155 sample).byteAt 0x301 :=
  ⟨⟨_, rfl, by decide⟩, ⟨_, rfl, by decide⟩⟩

/-- A step that draws a random byte, and one that does not. -/
theorem witness_OneDrawPerExecutedRandom :
    (∃ t, step (at_ 0xC1FF sample) = .next t ∧ (at_ 0xC1FF sample).halted = false ∧
        fetchedInstr (at_ 0xC1FF sample) = some (.rnd 1 0xFF#8)) ∧
      ∃ t, step (at_ 0x61FF sample) = .next t ∧ fetchedInstr (at_ 0x61FF sample) = some (.ldImm 1 0xFF#8) :=
  ⟨⟨_, rfl, rfl, rfl⟩, ⟨_, rfl, rfl⟩⟩

theorem witness_OutputStateIsNeverRead : ∃ t, step (at_ 0x8124 sample) = .next t := ⟨_, rfl⟩

/-- The two ends of the stack, and the empty one. -/
theorem witness_ReturnPopsIntoPc :
    (deep 1).sp.val = (0 : Fin 16).val + 1 ∧ (deep 16).sp.val = (15 : Fin 16).val + 1 ∧ (deep 0).sp.val = 0 := by decide

/-- The two ends of the stack, and the full one. -/
theorem witness_CallPushesAndJumps :
    (deep 0).sp.val = (0 : Fin 16).val ∧ (deep 15).sp.val = (15 : Fin 16).val ∧ (deep 16).sp.val = 16 := by decide

theorem witness_ReturnAfterCallComesBack :
    ∃ t u : State, (deep 15).sp.val < 16 ∧ exec (.call 0x300#12) (deep 15) = .next t ∧ u.sp = t.sp ∧ u.stack = t.stack ∧
      u.pc ≠ t.pc :=
  ⟨_, { sample with sp := 16, stack := (deep 15).stack.set 15 (deep 15).pc }, by decide, rfl, rfl, rfl, by decide⟩

theorem witness_AddSetsCarry : (1 : Reg) ≠ 15 ∧ (sample.reg 1).toNat + (sample.reg 2).toNat ≤ 255 ∧
    255 < ((regs [(1, 0xFF#8), (2, 0x01#8)] State.reset).reg 1).toNat +
      ((regs [(1, 0xFF#8), (2, 0x01#8)] State.reset).reg 2).toNat := by decide

theorem witness_SubtractsSetGreaterFlag : (1 : Reg) ≠ 15 ∧ (sample.reg 2).toNat < (sample.reg 1).toNat := by decide

/-- Both settings of `SHIFT_SOURCE`. -/
theorem witness_ShiftsMoveOneBitIntoVF :
    (0x05#8 = match sample.cfg.shiftSource with | .vx => sample.reg 1 | .vy => sample.reg 2) ∧
      (0x00#8 = match resetVY.cfg.shiftSource with | .vx => resetVY.reg 1 | .vy => resetVY.reg 2) ∧ (1 : Reg) ≠ 15 :=
  ⟨rfl, rfl, by decide⟩

theorem witness_RandomByteIsMasked : 7 < 8 ∧ (0x0F#8).getLsbD 7 = false ∧ (0xFE#8).getLsbD 0 = false := by decide

/-- Bytes beside the stored ones, also where the addresses wrap. -/
theorem witness_BcdStoresThreeDigits :
    (∀ k < 3, 0x2FF % 4096 ≠ sample.ea k) ∧ (∀ k < 3, 0x303 % 4096 ≠ sample.ea k) ∧
      ∀ k < 3, 0x001 % 4096 ≠ ({ sample with I := 0x0FFE#16 } : State).ea k := by decide

theorem witness_StoreWritesRegistersFromI :
    (0 : Reg) ≤ 1 ∧ (1 : Reg) ≤ 1 ∧ (∀ k ≤ (1 : Reg).val, 0x2FF % 4096 ≠ sample.ea k) ∧
      ∀ k ≤ (1 : Reg).val, 0x302 % 4096 ≠ sample.ea k := by decide

theorem witness_LoadReadsRegistersFromI : (0 : Reg) ≤ 1 ∧ (1 : Reg) ≤ 1 ∧ (1 : Reg) < 2 ∧ (14 : Reg) < 15 := by decide

/-- The registers of `u` are cleared in between. -/
theorem witness_LoadAfterStoreRestoresRegisters :
    ∃ t u : State, exec (.storeRegs 2) sample = .next t ∧ u.mem = t.mem ∧ u.I = sample.I ∧ u.reg 1 ≠ sample.reg 1 :=
  ⟨_, { sample.storeRegisters 3 with V := Vector.replicate 16 0x00#8 }, rfl, rfl, rfl, by decide⟩

/-- With a lit pixel and with none. -/
theorem witness_ClearUnlightsEveryPixel :
    Fetches (at_ 0x00E0 (lights [(31, 63)] State.reset)) .cls ∧
      pixel (at_ 0x00E0 (lights [(31, 63)] State.reset)).px 31 63 = true ∧ Fetches (at_ 0x00E0 State.reset) .cls :=
  ⟨⟨rfl, by decide, rfl⟩, by decide, ⟨rfl, by decide, rfl⟩⟩

/-- A sprite drawn over a lit pixel, and one drawn on an unlit display. -/
theorem witness_DrawXorsSpriteAndReportsCollision :
    (∃ r c, drwCovers (lights [(0, 0)] { State.reset with I := 0x0082#16 }) 0 1 5#4 r c = true ∧
        pixel (lights [(0, 0)] { State.reset with I := 0x0082#16 }).px r c = true) ∧
      ¬ ∃ r c, drwCovers State.reset 0 1 5#4 r c = true ∧ pixel State.reset.px r c = true := by
  refine ⟨⟨0, 0, by decide, by decide⟩, ?_⟩
  rintro ⟨r, c, -, h⟩
  have e : pixel State.reset.px r c = false := by simp [pixel, State.reset]
  rw [e] at h
  cases h

/-- A first draw that lights a pixel, and one of height 0 that draws nothing. -/
theorem witness_DrawingTwiceRestoresTheDisplay :
    (∃ t, exec (.drw 0 1 5#4) { State.reset with I := 0x0082#16 } = .next t ∧ t.reg 0 = State.reset.reg 0 ∧
        t.reg 1 = State.reset.reg 1 ∧
        ∃ r c, drwCovers { State.reset with I := 0x0082#16 } 0 1 5#4 r c = true ∧ pixel State.reset.px r c = false) ∧
      ∃ t, exec (.drw 0 1 0#4) State.reset = .next t ∧ t.reg 0 = State.reset.reg 0 ∧ t.reg 1 = State.reset.reg 1 ∧
        ¬ ∃ r c, drwCovers State.reset 0 1 0#4 r c = true ∧ pixel State.reset.px r c = false := by
  refine ⟨⟨_, rfl, by decide, by decide, 0, 0, by decide, by decide⟩, ⟨_, rfl, by decide, by decide, ?_⟩⟩
  rintro ⟨r, c, h, -⟩
  simp [drwCovers, spriteCovers] at h

theorem witness_ReadDelayTimer : Fetches (at_ 0xF107 { sample with DT := 2#8 }) (.ldVxDT 1) := ⟨rfl, by decide, rfl⟩

theorem witness_SetTimers : Fetches (at_ 0xF115 sample) (.ldDTVx 1) ∧ Fetches (at_ 0xF118 sample) (.ldSTVx 1) :=
  ⟨⟨rfl, by decide, rfl⟩, ⟨rfl, by decide, rfl⟩⟩

/-- A register value above 15 selects a key by its low four bits; pressed and not pressed. -/
theorem witness_KeySkipsTestTheKeypad :
    (7 : Key).val = ((regs [(2, 0x17#8)] State.reset).reg 2).toNat % 16 ∧
      (press [7] (regs [(2, 0x17#8)] State.reset)).keyDown 7 = true ∧
      (regs [(2, 0x17#8)] State.reset).keyDown 7 = false := by decide

/-- The lowest of several keys, key 0, key 15, and no key at all. -/
theorem witness_WaitForKeyTakesTheLowestOrRepeats :
    ((press [4, 9] sample).keyDown 4 = true ∧ ∀ j < (4 : Key), (press [4, 9] sample).keyDown j = false) ∧
      ((press [0] sample).keyDown 0 = true ∧ ∀ j < (0 : Key), (press [0] sample).keyDown j = false) ∧
      ((press [15] sample).keyDown 15 = true ∧ ∀ j < (15 : Key), (press [15] sample).keyDown j = false) ∧
      (∀ k, (at_ 0xF10A sample).keyDown k = false) := by decide

theorem witness_WaitForKeyFetches : Fetches (at_ 0xF10A sample) (.ldVxK 1) := ⟨rfl, by decide, rfl⟩

theorem witness_OverflowPushesNothing :
    Fetches (at_ 0x2300 (deep 16)) (.call 0x300#12) ∧ (at_ 0x2300 (deep 16)).sp.val = 16 ∧
      Fetches (at_ 0x2300 (deep 15)) (.call 0x300#12) ∧ (at_ 0x2300 (deep 15)).sp.val < 16 :=
  ⟨⟨rfl, by decide, rfl⟩, rfl, ⟨rfl, by decide, rfl⟩, by decide⟩

theorem witness_UnderflowPopsNothing :
    Fetches (at_ 0x00EE (deep 0)) .ret ∧ (at_ 0x00EE (deep 0)).sp.val = 0 ∧ Fetches (at_ 0x00EE (deep 1)) .ret ∧
      0 < (at_ 0x00EE (deep 1)).sp.val :=
  ⟨⟨rfl, by decide, rfl⟩, rfl, ⟨rfl, by decide, rfl⟩, by decide⟩

/-- The first and the last byte of the font, and the bytes beside it. -/
theorem witness_ResetSetsEveryElement :
    0 < 80 ∧ 79 < 80 ∧ (0x04F < 4096 ∧ 0x04F < 0x050) ∧ 0x0A0 < 4096 ∧ 0x0A0 ≤ 0x0A0 ∧ 4095 < 4096 := by decide

theorem witness_ResetStateIsTheTable : sample.cfg = Config.default ∧ sample.draws = 0 ∧ sample ≠ State.reset := by decide

/-- The longest image that loads with its last byte, the shortest that does not, and the bytes beside an image. -/
theorem witness_LoadCopiesTheImageOrNothing :
    (List.replicate 3584 0xAA#8).length ≤ 3584 ∧ 3584 < (List.replicate 3585 0xAA#8).length ∧
      3583 < (List.replicate 3584 0xAA#8).length ∧ 0x1FF < 0x200 ∧
      0x200 + [0x12#8, 0x00#8].length ≤ 0x202 := by
  simp only [List.length_replicate]
  decide

/-- A state at the edges of the invariant: the last pc that fetches, the largest `I`, the largest stack entry. -/
def edge : State :=
  at_ 0x00EE { State.reset with pc := 0x0FFE#16, I := 0x0FFF#16, sp := 1, stack := State.reset.stack.set 0 0x1000#16 }

theorem witness_EveryStepKeepsTheInvariant : ∃ t, Inv edge ∧ step edge = .next t ∧ t.pc = 0x1000#16 :=
  ⟨_, ⟨by decide, by decide, by decide, by decide⟩, rfl, rfl⟩

theorem witness_HostMovesKeepTheInvariant : ∃ t, Inv edge ∧ hostLoad [0x12#8, 0x00#8] edge = .ok t :=
  ⟨_, ⟨by decide, by decide, by decide, by decide⟩, rfl⟩

theorem witness_FaultCodesFollowTheTable :
    sample.halted = false ∧ raisedFault (at_ 0x6A01 sample) = none ∧
      raisedFault { sample with pc := 0x0FFF#16 } = some .outOfBoundsFetch ∧
      raisedFault (at_ 0x0000 sample) = some .unknownOpcode ∧ raisedFault (at_ 0x2300 (deep 16)) = some .stackOverflow ∧
      raisedFault (at_ 0x00EE (deep 0)) = some .stackUnderflow := by decide

/-- A first move that is no reset; a step and a load that answers ok, each with further moves. -/
theorem witness_HostMovesFollowTheBootOrder :
    HostMove.step ≠ .reset ∧ HostMove.reset ∉ [HostMove.setKeys sample.key, .step] ∧
      (∃ v z, (Session.up .fresh sample).move .step = .next (v, none) ∧
        Session.run [.setKeys sample.key, .step] v = .next z) ∧
      ∃ v z, (Session.up .fresh sample).move (.load [0x12#8, 0x00#8]) = .next (v, none) ∧
        Session.run [.setKeys sample.key, .step] v = .next z :=
  ⟨by decide, by decide, ⟨_, _, rfl, rfl⟩, ⟨_, _, rfl, rfl⟩⟩

/-- An empty image, one of a single word, the longest that loads and the shortest that does not. -/
theorem witness_BootSequenceStartsTheProgram :
    ([] : List Byte).length ≤ 3584 ∧ 2 ≤ [0x12#8, 0x00#8].length ∧ [0x12#8, 0x00#8].length ≤ 3584 ∧
      (List.replicate 3584 0xAA#8).length ≤ 3584 ∧ 3584 < (List.replicate 3585 0xAA#8).length := by
  simp only [List.length_replicate]
  decide

/-- A run with every kind of move. -/
theorem witness_EveryHostRunKeepsInvariantAndConfiguration :
    ∃ p s, Session.run [.reset, .load [0x12#8, 0x00#8], .setKeys sample.key, .step, .reset] (.created resetLenient.cfg) =
      .next (.up p s) := by
  set_option maxRecDepth 20000 in exact ⟨_, _, rfl⟩

end Sys2Proof.Tests
end

section
/-! The execute phase answers a next state for every instruction and leaves alone the elements that only the phases
around it or the host write; hence the word a step fetches is the one it ends with (spec/40_cycle.md R91, R94). -/

namespace Sys2Proof.Machine

/-- What no execute phase writes: the fetched word and the draw flag, which are the step's (R91, R96), and the keypad and
the configuration, which are the host's (R26, R38). -/
structure ExecuteFrame (s t : State) : Prop where
  currentOpcode : t.currentOpcode = s.currentOpcode
  drawFlag : t.drawFlag = s.drawFlag
  key : t.key = s.key
  cfg : t.cfg = s.cfg

theorem executeFrame_skipIf (s : State) (c : Bool) : ExecuteFrame s (s.skipIf c) :=
  ⟨s.skipIf_currentOpcode c, s.skipIf_drawFlag c, s.skipIf_key c, s.skipIf_cfg c⟩

/-- Every instruction answers a next state within the frame: the faults of the call stack are next states too. -/
theorem exec_next_frame (i : Instr) (s : State) : ∃ t, exec i s = .next t ∧ ExecuteFrame s t := by
  cases i with
  | ret =>
    rcases execRet_cases s with ⟨_, he⟩ | ⟨_, he⟩
    all_goals exact ⟨_, he, rfl, rfl, rfl, rfl⟩
  | call nnn =>
    rcases execCall_cases nnn s with ⟨_, he⟩ | ⟨_, he⟩
    all_goals exact ⟨_, he, rfl, rfl, rfl, rfl⟩
  | ldVxK x =>
    rcases execLdVxK_cases x s with ⟨_, _, he⟩ | ⟨_, he⟩
    all_goals exact ⟨_, he, rfl, rfl, rfl, rfl⟩
  | storeRegs x =>
    obtain ⟨m, hm, _⟩ := s.storeRegisters_spec (x.val + 1)
    exact ⟨_, congrArg Host.Outcome.next hm, rfl, rfl, rfl, rfl⟩
  | loadRegs x =>
    obtain ⟨v, hv⟩ := s.loadRegisters_spec (x.val + 1)
    exact ⟨_, congrArg Host.Outcome.next hv, rfl, rfl, rfl, rfl⟩
  | seImm | sneImm | seReg | sneReg | skp | sknp => exact ⟨_, rfl, executeFrame_skipIf s _⟩
  | _ => exact ⟨_, rfl, rfl, rfl, rfl, rfl⟩

@[simp] theorem State.finish_currentOpcode (s : State) (d : Display) : (s.finish d).currentOpcode = s.currentOpcode := by
  cases h : s.halted with
  | true => rw [State.finish_of_halted d h]
  | false => rw [State.finish_of_running d h, State.complete_currentOpcode]

theorem State.fetchOutOfBounds_of_le {s : State} (h : 4096 ≤ s.pc.toNat + 1) : s.fetchOutOfBounds = true :=
  decide_eq_true h

theorem State.fetchOutOfBounds_of_lt {s : State} (h : s.pc.toNat + 1 < 4096) : s.fetchOutOfBounds = false :=
  decide_eq_false (Nat.not_le.mpr h)

/-- A step of a running core that fetches ends with the word fetched, legal or not (R91, R93). -/
theorem step_currentOpcode_of_inBounds {s : State} (h : s.halted = false) (hb : s.fetchOutOfBounds = false) :
    ∃ t, step s = .next t ∧ t.currentOpcode = s.fetchWord := by
  cases hd : decodeWord s.fetchWord with
  | error e =>
    refine ⟨_, step_of_unknown h hb hd, ?_⟩
    cases s.cfg.strictDecode <;> rfl
  | ok i =>
    obtain ⟨u, he, hu⟩ := exec_next_frame i s.fetched
    have hstep : step s = .next (u.finish s.px) := by rw [step_of_decoded h hb hd, he]
    exact ⟨_, hstep, by rw [State.finish_currentOpcode, hu.currentOpcode, State.fetched_currentOpcode]⟩

/-- Settles O7: below the bound the step ends with the word fetched, whose bytes are big-endian; at the bound it raises
the fault of R162 and keeps the old word. -/
theorem fetchReadsTwoBytesBigEndian : Obligations.FetchReadsTwoBytesBigEndian := by
  unfold Obligations.FetchReadsTwoBytesBigEndian
  intro s h
  constructor
  · intro hpc
    exact ⟨_, step_of_outOfBounds h (State.fetchOutOfBounds_of_le hpc), rfl, rfl, rfl⟩
  · intro hpc
    obtain ⟨t, hstep, hop⟩ := step_currentOpcode_of_inBounds h (State.fetchOutOfBounds_of_lt hpc)
    exact ⟨t, hstep, by rw [hop, State.fetchWord, toNat_wordOfBytes]⟩

end Sys2Proof.Machine
end

section
/-! The control-flow instructions (spec/41_control_flow.md R100 to R107): what a jump, a skip, a call and a return do to
the program counter and the call stack, and that they leave every other element as it was. -/

namespace Sys2Proof.Machine

/-! ## Frames -/

theorem onlyChanges_jump (s : State) (a : Word) : OnlyChanges [.programCounter] s (s.jump a) := by
  intro e he
  cases e with
  | programCounter => simp at he
  | registers | memory => exact fun _ => rfl
  | callStack => exact ⟨rfl, rfl⟩
  | _ => rfl

/-- A skip is a jump, to the next instruction where it is not taken. -/
theorem State.skipIf_eq_jump (s : State) (c : Bool) : s.skipIf c = s.jump (if c then s.pc + 2#16 else s.pc) := by
  cases c <;> rfl

theorem onlyChanges_skipIf (s : State) (c : Bool) : OnlyChanges [.programCounter] s (s.skipIf c) := by
  rw [State.skipIf_eq_jump]
  exact onlyChanges_jump s _

theorem onlyChanges_raiseHere (s : State) (f : Fault) : OnlyChanges [.faultRecord] s (s.raiseHere f) := by
  intro e he
  cases e with
  | faultRecord => simp at he
  | registers | memory => exact fun _ => rfl
  | callStack => exact ⟨rfl, rfl⟩
  | _ => rfl

theorem onlyChanges_stack_pc (s : State) (sp : Fin 17) (stack : Vector Word 16) (a : Word) :
    OnlyChanges [.programCounter, .callStack] s { s with sp := sp, stack := stack, pc := a } := by
  intro e he
  cases e with
  | programCounter | callStack => simp at he
  | registers | memory => exact fun _ => rfl
  | _ => rfl

/-! ## Jump targets -/

@[simp] theorem toNat_zext16 (nnn : Addr) : (zext16 nnn).toNat = nnn.toNat :=
  BitVec.toNat_setWidth_of_le (by decide)

/-- A 12-bit and an 8-bit number have a 16-bit sum, so nothing is reduced (R107). -/
theorem toNat_jumpOffset (nnn : Addr) (v : Byte) : (jumpOffset nnn v).toNat = nnn.toNat + v.toNat := by
  have hn : nnn.toNat < 4096 := nnn.isLt
  have hv : v.toNat < 256 := v.isLt
  rw [jumpOffset, BitVec.toNat_add, toNat_zext16, BitVec.toNat_setWidth_of_le (by decide)]
  omega

/-- Settles O27: the target is the sum itself, at most 0xFFF + 0xFF. -/
theorem jumpWithOffsetAddsV0 : Obligations.JumpWithOffsetAddsV0 := by
  unfold Obligations.JumpWithOffsetAddsV0
  intro nnn s
  have hn : nnn.toNat < 4096 := nnn.isLt
  have hv : (s.reg 0).toNat < 256 := (s.reg 0).isLt
  have hpc := toNat_jumpOffset nnn (s.reg 0)
  exact ⟨s.jump (jumpOffset nnn (s.reg 0)), rfl, hpc, by rw [State.jump_pc, hpc]; omega, onlyChanges_jump s _⟩

/-- Settles O26: the target is the zero-extended `nnn`. -/
theorem jumpSetsPc : Obligations.JumpSetsPc := by
  unfold Obligations.JumpSetsPc
  intro nnn s
  exact ⟨s.jump (zext16 nnn), rfl, toNat_zext16 nnn, onlyChanges_jump s _⟩

/-! ## Skips -/

/-- An instruction whose meaning is `skipIf` on a condition moves pc by the condition and changes nothing else (R99). -/
theorem exec_skipIf_spec {i : Instr} {s : State} {c : Bool} {p : Prop} [Decidable p]
    (he : exec i s = .next (s.skipIf c)) (hc : c = true ↔ p) :
    ∃ t, exec i s = .next t ∧ t.pc = (if p then s.pc + 2#16 else s.pc) ∧ OnlyChanges [.programCounter] s t :=
  ⟨s.skipIf c, he, by simp only [State.skipIf_pc, hc], onlyChanges_skipIf s c⟩

/-- Settles O28: both are `skipIf`, on the equality of `V[x]` and `nn` and on its negation. -/
theorem immediateSkipsTestVx : Obligations.ImmediateSkipsTestVx := by
  unfold Obligations.ImmediateSkipsTestVx
  intro x nn s
  exact ⟨exec_skipIf_spec rfl beq_iff_eq, exec_skipIf_spec rfl bne_iff_ne⟩

/-- Settles O29: both are `skipIf`, on the equality of the two registers and on its negation. -/
theorem registerSkipsCompareVxVy : Obligations.RegisterSkipsCompareVxVy := by
  unfold Obligations.RegisterSkipsCompareVxVy
  intro x y s
  exact ⟨exec_skipIf_spec rfl beq_iff_eq, exec_skipIf_spec rfl bne_iff_ne⟩

/-! ## Call and return -/

/-- Settles O23: the stack pointer decides which case of `execRet_cases` holds; a pop reads entry `sp - 1` and writes none. -/
theorem returnPopsIntoPc : Obligations.ReturnPopsIntoPc := by
  unfold Obligations.ReturnPopsIntoPc
  intro s
  rcases execRet_cases s with ⟨hpos, he⟩ | ⟨hzero, he⟩
  · refine ⟨fun k hk => ?_, fun hzero => by omega⟩
    have htop : s.sp.val - 1 = k.val := by omega
    exact ⟨_, he, htop, congrArg s.stackAt (Fin.ext htop), rfl, onlyChanges_stack_pc s _ _ _⟩
  · exact ⟨fun k hk => by omega, fun _ => ⟨_, he, rfl, onlyChanges_raiseHere s _⟩⟩

/-- Settles O24: the stack pointer decides which case of `execCall_cases` holds; a push writes entry `sp` and no other. -/
theorem callPushesAndJumps : Obligations.CallPushesAndJumps := by
  unfold Obligations.CallPushesAndJumps
  intro nnn s
  rcases execCall_cases nnn s with ⟨hlt, he⟩ | ⟨hfull, he⟩
  · refine ⟨fun k hk => ?_, fun hfull => by omega⟩
    refine ⟨_, he, congrArg (· + 1) hk, toNat_zext16 nnn, ?_, fun j hj => ?_, onlyChanges_stack_pc s _ _ _⟩
    · simp [State.stackAt, hk]
    · have hne : s.sp.val ≠ j.val := fun h => hj (Fin.ext (h.symm.trans hk))
      exact Vector.getElem_set_ne hlt j.isLt hne
  · exact ⟨fun k hk => by omega, fun _ => ⟨_, he, rfl, onlyChanges_raiseHere s _⟩⟩

end Sys2Proof.Machine
end

section
/-! Register loads, the addition of an immediate and the bitwise operations (spec/42_alu.md R110 to R115): each writes one
register, and neither `VF` nor any other element. -/

namespace Sys2Proof.Machine

/-! ## Frames -/

theorem onlyChanges_registers (s : State) (V : Vector Byte 16) : OnlyChanges [.registers] s { s with V := V } := by
  intro e he
  cases e with
  | registers => simp at he
  | memory => exact fun _ => rfl
  | callStack => exact ⟨rfl, rfl⟩
  | _ => rfl

theorem onlyChanges_setReg (s : State) (x : Reg) (v : Byte) : OnlyChanges [.registers] s (s.setReg x v) :=
  onlyChanges_registers s _

theorem keepsRegsBut_setReg (s : State) (x : Reg) (v : Byte) : KeepsRegsBut [x] s (s.setReg x v) :=
  fun _ hr => s.reg_setReg_of_ne v (List.ne_of_not_mem_cons hr)

/-! ## Immediates -/

/-- Settles O30: both are one `setReg`, and a sum of bytes is the sum of numbers modulo 256. -/
theorem loadAndAddImmediate : Obligations.LoadAndAddImmediate := by
  unfold Obligations.LoadAndAddImmediate
  intro x nn s
  have hsum : ((s.setReg x (s.reg x + nn)).reg x).toNat = ((s.reg x).toNat + nn.toNat) % 256 := by
    rw [State.reg_setReg_self, BitVec.toNat_add]
  exact ⟨⟨_, rfl, s.reg_setReg_self x _, keepsRegsBut_setReg s x _, onlyChanges_setReg s x _⟩,
    ⟨_, rfl, hsum, keepsRegsBut_setReg s x _, onlyChanges_setReg s x _⟩⟩

/-! ## Copy and logic -/

/-- An instruction whose meaning is `setReg` on a byte `v` writes the bits of `v` to `V[x]` and changes nothing else. -/
theorem exec_setReg_bits {i : Instr} {s : State} {x : Reg} {v : Byte} {bits : Nat → Bool}
    (he : exec i s = .next (s.setReg x v)) (hv : ∀ b, v.getLsbD b = bits b) :
    ∃ t, exec i s = .next t ∧ (∀ b < 8, (t.reg x).getLsbD b = bits b) ∧
      KeepsRegsBut [x] s t ∧ OnlyChanges [.registers] s t :=
  ⟨_, he, fun b _ => by rw [State.reg_setReg_self, hv], keepsRegsBut_setReg s x v, onlyChanges_setReg s x v⟩

/-- Settles O31: all four are one `setReg`, of `V[y]` or of a bitwise operation on the old `V[x]` and `V[y]`. -/
theorem copyAndLogicWriteVxOnly : Obligations.CopyAndLogicWriteVxOnly := by
  unfold Obligations.CopyAndLogicWriteVxOnly
  intro x y s
  refine ⟨⟨_, rfl, s.reg_setReg_self x _, keepsRegsBut_setReg s x _, onlyChanges_setReg s x _⟩, ?_, ?_, ?_⟩
  · exact exec_setReg_bits rfl fun _ => BitVec.getLsbD_or
  · exact exec_setReg_bits rfl fun _ => BitVec.getLsbD_and
  · exact exec_setReg_bits rfl fun _ => BitVec.getLsbD_xor

end Sys2Proof.Machine
end

section
/-! The instructions that write the index register (spec/43_index_memory.md R130 to R132): each is one `setI`, whose value
is a number below 65536 that the 16-bit register holds without a wrap of its own. -/

namespace Sys2Proof.Machine

theorem onlyChanges_setI (s : State) (v : Word) : OnlyChanges [.index] s (s.setI v) := by
  intro e he
  cases e with
  | index => simp at he
  | registers | memory => exact fun _ => rfl
  | callStack => exact ⟨rfl, rfl⟩
  | _ => rfl

/-- An instruction whose meaning is `setI` on a word of value `n` sets the index register to `n` and changes nothing else. -/
theorem exec_setI_spec {i : Instr} {s : State} {v : Word} {n : Nat} (he : exec i s = .next (s.setI v))
    (hv : v.toNat = n) : ∃ t, exec i s = .next t ∧ t.I.toNat = n ∧ OnlyChanges [.index] s t :=
  ⟨s.setI v, he, hv, onlyChanges_setI s v⟩

/-- All 8 bits of the register value count, and the address is at most 0x54B, so nothing is reduced (R132). -/
theorem toNat_glyphAddress (v : Byte) : (glyphAddress v).toNat = 0x050 + v.toNat * 5 := by
  have hv : v.toNat < 256 := v.isLt
  rw [glyphAddress, BitVec.toNat_ofNat, Nat.mod_eq_of_lt (by omega)]

/-- The sum is reduced modulo 4096 and no further (R131, C6). -/
theorem toNat_indexPlus (i : Word) (v : Byte) : (indexPlus i v).toNat = (i.toNat + v.toNat) % 4096 := by
  rw [indexPlus, BitVec.toNat_ofNat, Nat.mod_eq_of_lt (by omega)]

/-- Settles O36: both are one `setI`, of the zero-extended `nnn` and of the glyph address. -/
theorem indexLoadAndGlyphAddress : Obligations.IndexLoadAndGlyphAddress := by
  unfold Obligations.IndexLoadAndGlyphAddress
  intro nnn x s
  exact ⟨exec_setI_spec rfl (toNat_zext16 nnn), exec_setI_spec rfl (toNat_glyphAddress (s.reg x))⟩

/-- Settles O37: it is one `setI`, of the reduced sum; the registers, `VF` among them, lie in its frame. -/
theorem addToIndexWrapsAt4096 : Obligations.AddToIndexWrapsAt4096 := by
  unfold Obligations.AddToIndexWrapsAt4096
  intro x s
  exact exec_setI_spec rfl (toNat_indexPlus s.I (s.reg x))

end Sys2Proof.Machine
end

section
/-! The delay-timer read (spec/45_timer_keypad.md R150) and the step around an instruction that raises no fault: what it
writes is what the step ends with, but for the draw flag and the tick of the timers (spec/40_cycle.md R90). -/

namespace Sys2Proof.Machine

/-- A step whose instruction answers an unhalted state completes from that state. -/
theorem step_of_fetches {s u : State} {i : Instr} (hf : Fetches s i) (he : exec i s.fetched = .next u)
    (hu : u.halted = false) : step s = .next (u.complete s.px) := by
  obtain ⟨hrun, hpc, hdec⟩ := hf
  rw [step_of_decoded hrun (State.fetchOutOfBounds_of_lt hpc) hdec, he]
  exact congrArg Host.Outcome.next (State.finish_of_running s.px hu)

/-- What `Fx07` means: the delay timer into `V[x]` (R150). -/
theorem exec_ldVxDT (x : Reg) (s : State) : exec (.ldVxDT x) s = .next (s.setReg x s.DT) := rfl

/-- A step that fetches `Fx07` completes from the state that holds the timer as the step found it. -/
theorem step_ldVxDT {x : Reg} {s : State} (hf : Fetches s (.ldVxDT x)) :
    step s = .next ((s.fetched.setReg x s.DT).complete s.px) := by
  have hrun : (s.fetched.setReg x s.DT).halted = false := by
    rw [State.halted_setReg, State.halted_fetched, hf.left]
  exact step_of_fetches hf (exec_ldVxDT x s.fetched) hrun

/-- Settles O45: the execute phase is one `setReg`; the tick comes after it, so it lowers the timer and keeps `V[x]`. -/
theorem readDelayTimer : Obligations.ReadDelayTimer := by
  unfold Obligations.ReadDelayTimer
  intro x s
  constructor
  · exact ⟨_, exec_ldVxDT x s, s.reg_setReg_self x _, keepsRegsBut_setReg s x _, onlyChanges_setReg s x _⟩
  · intro hf
    refine ⟨_, step_ldVxDT hf, ?_, ?_⟩
    · rw [State.reg_congr (State.complete_V _ _), State.reg_setReg_self]
    · rw [State.complete_DT, State.setReg_DT, State.fetched_DT, toNat_tickByte]

end Sys2Proof.Machine
end

section
/-! The faults of the call stack at the step (spec/60_exceptions.md R164, R165): the execute phase's fault ends the step at
once, with the stack as the step found it, and otherwise the step completes unhalted. -/

namespace Sys2Proof.Machine

/-- A step whose execute phase raises a fault ends at once, from the state fetched (R97). -/
theorem step_of_fetches_raise {s : State} {i : Instr} {f : Fault} (hf : Fetches s i)
    (he : exec i s.fetched = .next (s.fetched.raiseHere f)) : step s = .next (s.fetched.raiseHere f) := by
  obtain ⟨hrun, hpc, hdec⟩ := hf
  rw [step_of_decoded hrun (State.fetchOutOfBounds_of_lt hpc) hdec, he]
  exact congrArg Host.Outcome.next (State.finish_of_halted s.px (State.halted_raiseHere _ f))

/-- A step whose execute phase leaves the fault record as it was ends unhalted. -/
theorem step_running_of_fault_eq {s u : State} {i : Instr} (hf : Fetches s i) (he : exec i s.fetched = .next u)
    (hu : u.fault = s.fetched.fault) : ∃ t, step s = .next t ∧ t.halted = false := by
  have hrun : u.halted = false := by rw [State.halted_congr hu, State.halted_fetched, hf.left]
  exact ⟨_, step_of_fetches hf he hrun, by rw [State.halted_complete, hrun]⟩

/-- Settles O49: the stack pointer, which fetch keeps, decides which case of `execCall_cases` the execute phase takes. -/
theorem overflowPushesNothing : Obligations.OverflowPushesNothing := by
  unfold Obligations.OverflowPushesNothing
  intro nnn s hf
  rcases execCall_cases nnn s.fetched with ⟨hlt, he⟩ | ⟨hfull, he⟩
  · rw [State.fetched_sp] at hlt
    obtain ⟨t, hstep, ht⟩ := step_running_of_fault_eq hf he rfl
    exact ⟨t, hstep, fun hfull => by omega, fun _ => ht⟩
  · rw [State.fetched_sp] at hfull
    exact ⟨_, step_of_fetches_raise hf he, fun _ => ⟨rfl, rfl, rfl, rfl⟩, fun hlt => by omega⟩

/-- Settles O50: the stack pointer, which fetch keeps, decides which case of `execRet_cases` the execute phase takes. -/
theorem underflowPopsNothing : Obligations.UnderflowPopsNothing := by
  unfold Obligations.UnderflowPopsNothing
  intro s hf
  rcases execRet_cases s.fetched with ⟨hpos, he⟩ | ⟨hzero, he⟩
  · rw [State.fetched_sp] at hpos
    obtain ⟨t, hstep, ht⟩ := step_running_of_fault_eq hf he rfl
    exact ⟨t, hstep, fun hzero => by omega, fun _ => ht⟩
  · rw [State.fetched_sp] at hzero
    exact ⟨_, step_of_fetches_raise hf he, fun _ => ⟨rfl, rfl, rfl, rfl⟩, fun hpos => by omega⟩

end Sys2Proof.Machine
end

section
/-! The host's reset and load (spec/70_reset_and_hazards.md R180, R182): both are consecutive stores that end below 4096,
so their addresses split into those of the list and those before or behind it. -/

namespace Sys2Proof.Machine

/-! ## Consecutive stores -/

/-- The address of byte `k` of the list holds that byte. -/
theorem State.byteAt_storeBytes_add (s : State) {a k : Nat} {bs : List Byte} (h : a + bs.length ≤ 4096)
    (hk : k < bs.length) : (s.storeBytes a bs).byteAt (a + k) = bs[k] := by
  rw [State.byteAt_storeBytes bs s a (a + k) h (by omega), if_pos (Nat.le_add_right a k), Nat.add_sub_cancel_left,
    List.getElem?_eq_getElem hk, Option.getD_some]

/-- An address before or behind the list keeps its byte. -/
theorem State.byteAt_storeBytes_outside (s : State) {a b : Nat} {bs : List Byte} (h : a + bs.length ≤ 4096)
    (hb : b < 4096) (hout : b < a ∨ a + bs.length ≤ b) : (s.storeBytes a bs).byteAt b = s.byteAt b := by
  rw [State.byteAt_storeBytes bs s a b h hb]
  split
  · rw [List.getElem?_eq_none (by omega), Option.getD_none]
  · rfl

theorem onlyChanges_mem (s : State) (m : Memory) : OnlyChanges [.memory] s { s with mem := m } := by
  intro e he
  cases e with
  | memory => simp at he
  | registers => exact fun _ => rfl
  | callStack => exact ⟨rfl, rfl⟩
  | _ => rfl

theorem onlyChanges_storeBytes (s : State) (a : Nat) (bs : List Byte) : OnlyChanges [.memory] s (s.storeBytes a bs) := by
  obtain ⟨m, h, _⟩ := State.storeBytes_spec bs s a
  rw [h]
  exact onlyChanges_mem s m

/-! ## Reset -/

/-- The memory of a reset is the stores of the font table; the static inputs and the draw counter lie outside memory. -/
theorem byteAt_hostReset (s : State) (a : Nat) :
    (hostReset s).byteAt a = (State.reset.storeBytes 0x050 s.cfg.fontTable.toList).byteAt a := rfl

/-- The end of the font table, 0x0A0, lies within memory (R31). -/
theorem fontTable_fits (f : FontTable) : 0x050 + f.toList.length ≤ 4096 := by
  rw [Vector.length_toList]
  decide

/-- Byte `k` of the configured font table after a reset (R180). -/
theorem byteAt_hostReset_font (s : State) {k : Nat} (hk : k < 80) :
    (hostReset s).byteAt (0x050 + k) = s.cfg.fontTable[k] := by
  have hlen : k < s.cfg.fontTable.toList.length := by rwa [Vector.length_toList]
  rw [byteAt_hostReset, State.byteAt_storeBytes_add State.reset (fontTable_fits _) hlen, Vector.getElem_toList]

theorem State.byteAt_reset_outside_font {a : Nat} (ha : a < 4096) (hout : a < 0x050 ∨ 0x0A0 ≤ a) :
    State.reset.byteAt a = 0x00#8 := by
  have hmem : State.reset.byteAt a = resetByte a := congrArg resetByte (Nat.mod_eq_of_lt ha)
  rw [hmem, resetByte, dif_neg (by omega)]

/-- Every byte of memory beside the font is zero after a reset, program memory among them (R180). -/
theorem byteAt_hostReset_outside_font (s : State) {a : Nat} (ha : a < 4096) (hout : a < 0x050 ∨ 0x0A0 ≤ a) :
    (hostReset s).byteAt a = 0x00#8 := by
  have hbeside : a < 0x050 ∨ 0x050 + s.cfg.fontTable.toList.length ≤ a := by rwa [Vector.length_toList]
  rw [byteAt_hostReset, State.byteAt_storeBytes_outside State.reset (fontTable_fits _) ha hbeside,
    State.byteAt_reset_outside_font ha hout]

/-- Settles O51: but for memory the state is that of `State.reset`, whatever the state before; memory is that of the font
lemmas. -/
theorem resetSetsEveryElement : Obligations.ResetSetsEveryElement := by
  unfold Obligations.ResetSetsEveryElement
  intro s
  have hfont : ∀ k (h : k < 80), (hostReset s).byteAt (0x050 + k) = s.cfg.fontTable[k] :=
    fun _ hk => byteAt_hostReset_font s hk
  have hrest : ∀ a < 4096, a < 0x050 ∨ 0x0A0 ≤ a → (hostReset s).byteAt a = 0x00#8 :=
    fun _ ha hout => byteAt_hostReset_outside_font s ha hout
  obtain ⟨m, h, _⟩ := hostReset_spec s
  rw [h] at hfont hrest ⊢
  exact ⟨fun r => Vector.getElem_replicate r.isLt, rfl, rfl, rfl, fun k => Vector.getElem_replicate k.isLt, rfl, rfl,
    fun k => Vector.getElem_replicate k.isLt, pixel_clearDisplay, rfl, rfl, rfl, rfl, hfont, hrest⟩

/-! ## Load -/

/-- A load of an image that fits is the stores of its bytes (R182). -/
theorem hostLoad_of_fits {image : List Byte} (s : State) (h : image.length ≤ 3584) :
    hostLoad image s = .ok (s.storeBytes 0x200 image) :=
  if_pos (decide_eq_true h)

/-- Settles O53: the length decides between the refusal and the stores, which end at 4096 at the latest. -/
theorem loadCopiesTheImageOrNothing : Obligations.LoadCopiesTheImageOrNothing := by
  unfold Obligations.LoadCopiesTheImageOrNothing
  intro image s
  constructor
  · intro hlong
    rcases hostLoad_cases image s with ⟨_, herr⟩ | ⟨hfits, _⟩
    · exact herr
    · omega
  · intro hfits
    have hend : 0x200 + image.length ≤ 4096 := by omega
    exact ⟨_, hostLoad_of_fits s hfits, fun _ hk => s.byteAt_storeBytes_add hend hk,
      fun _ ha hout => s.byteAt_storeBytes_outside hend ha hout, onlyChanges_storeBytes s 0x200 image⟩

end Sys2Proof.Machine
end

section
/-! The decoder against the encoder (spec/30_encoding.md R71 to R75): a word decodes to the instruction whose fields it
holds, and no digit of it is dropped. -/

namespace Sys2Proof

/-! ## Decode after encode -/

/-- Decoding reads the fields that the format of the instruction's word put together. -/
theorem decodeWord_encode (i : Instr) : decodeWord (encode i) = .ok i := by
  cases i with
  | cls | ret => rfl
  | jp | call | ldI | jpV0 => simp [encode, decodeWord]
  | seImm | sneImm | ldImm | addImm | rnd => simp [encode, decodeWord]
  | seReg | sneReg | drw => simp [encode, decodeWord]
  | ldReg | orReg | andReg | xorReg | addReg | subReg | shrReg | subnReg | shlReg =>
    simp [encode, decodeWord, decodeGroup8]
  | skp | sknp => simp [encode, decodeWord, decodeGroupE]
  | ldVxDT | ldVxK | ldDTVx | ldSTVx | addIVx | ldFVx | ldBVx | storeRegs | loadRegs =>
    simp [encode, decodeWord, decodeGroupF]

theorem decode_encodeBytes_append (i : Instr) (rest : List Byte) : decode (encodeBytes i ++ rest) = .ok (i, rest) := by
  have hbytes : encodeBytes i ++ rest = (encode i).extractLsb' 8 8 :: (encode i).extractLsb' 0 8 :: rest := rfl
  rw [hbytes, decode_two, wordOfBytes_extract, decodeWord_encode]

/-- Settles O1: the fields of a format's word are those it was built from, and the two bytes of a word rebuild it. -/
theorem decodeOfEncodeIsTheInstruction : Obligations.DecodeOfEncodeIsTheInstruction := by
  unfold Obligations.DecodeOfEncodeIsTheInstruction
  exact fun i => ⟨decodeWord_encode i, decode_encodeBytes_append i⟩

/-! ## Encode after decode -/

theorem formatA_of_fields {w : Word} {op : Nibble} (hop : opField w = op) : formatA op (nnnField w) = w := by
  rw [← hop]
  exact formatA_fields w

theorem formatXI_of_fields {w : Word} {op : Nibble} {nn : Byte} (hop : opField w = op) (hnn : nnField w = nn) :
    formatXI op (xField w) nn = w := by
  rw [← hop, ← hnn]
  exact formatXI_fields w

theorem formatXYN_of_fields {w : Word} {op n : Nibble} (hop : opField w = op) (hn : nField w = n) :
    formatXYN op (xField w) (yField w) n = w := by
  rw [← hop, ← hn]
  exact formatXYN_fields w

theorem encode_of_decodeGroup0 {w : Word} {i : Instr} (h : decodeGroup0 w = .ok i) : encode i = w := by
  unfold decodeGroup0 at h
  split at h
  · cases h
    exact Eq.symm ‹w = 0x00E0#16›
  · split at h
    · cases h
      exact Eq.symm ‹w = 0x00EE#16›
    · cases h

theorem encode_of_decodeGroup8 {w : Word} {i : Instr} (hop : opField w = 0x8#4) (h : decodeGroup8 w = .ok i) :
    encode i = w := by
  unfold decodeGroup8 at h
  split at h <;> cases h
  all_goals exact formatXYN_of_fields hop (BitVec.eq_of_toNat_eq ‹(nField w).toNat = _›)

theorem encode_of_decodeGroupE {w : Word} {i : Instr} (hop : opField w = 0xE#4) (h : decodeGroupE w = .ok i) :
    encode i = w := by
  unfold decodeGroupE at h
  split at h <;> cases h
  all_goals exact formatXI_of_fields hop (BitVec.eq_of_toNat_eq ‹(nnField w).toNat = _›)

theorem encode_of_decodeGroupF {w : Word} {i : Instr} (hop : opField w = 0xF#4) (h : decodeGroupF w = .ok i) :
    encode i = w := by
  unfold decodeGroupF at h
  split at h <;> cases h
  all_goals exact formatXI_of_fields hop (BitVec.eq_of_toNat_eq ‹(nnField w).toNat = _›)

theorem encode_of_decodeWord {w : Word} {i : Instr} (h : decodeWord w = .ok i) : encode i = w := by
  have hop {op : Nibble} : (opField w).toNat = op.toNat → opField w = op := BitVec.eq_of_toNat_eq
  unfold decodeWord at h
  split at h
  case h_1 => exact encode_of_decodeGroup0 h
  case h_9 ho => exact encode_of_decodeGroup8 (hop ho) h
  case h_15 ho => exact encode_of_decodeGroupE (hop ho) h
  case h_16 ho => exact encode_of_decodeGroupF (hop ho) h
  case h_2 ho | h_3 ho | h_11 ho | h_12 ho => cases h; exact formatA_of_fields (hop ho)
  case h_4 ho | h_5 ho | h_7 ho | h_8 ho | h_13 ho => cases h; exact formatXI_of_fields (hop ho) rfl
  case h_14 ho => cases h; exact formatXYN_of_fields (hop ho) rfl
  case h_6 ho | h_10 ho =>
    split at h
    · cases h; exact formatXYN_of_fields (hop ho) ‹nField w = 0#4›
    · cases h
  case h_17 => cases h

/-- Settles O2: a decoded instruction holds every field of its word, and every fixed digit was checked. -/
theorem encodeOfDecodeIsTheWord : Obligations.EncodeOfDecodeIsTheWord := by
  unfold Obligations.EncodeOfDecodeIsTheWord
  exact fun _ _ => encode_of_decodeWord

end Sys2Proof
end

section
/-! The decoder against the opcode table (spec/30_encoding.md R75, R76, R81): a word decodes to an instruction exactly
when it matches the mask and match of a row, and to none exactly in the sets R76 lists. -/

namespace Sys2Proof
open Sys2Proof.Machine Sys2Proof.Laws.EncodingMatchesRow

/-! ## The rows -/

/-- Every instruction's word matches its row (R81), the laws per constructor put together. -/
theorem covers_encode (i : Instr) : (opcodeRow i).covers (encode i) = true := by
  cases i
  exacts [cls, ret, jp _, call _, seImm _ _, sneImm _ _, seReg _ _, ldImm _ _, addImm _ _, ldReg _ _, orReg _ _,
    andReg _ _, xorReg _ _, addReg _ _, subReg _ _, shrReg _ _, subnReg _ _, shlReg _ _, sneReg _ _, ldI _, jpV0 _,
    rnd _ _, drw _ _ _, skp _, sknp _, ldVxDT _, ldVxK _, ldDTVx _, ldSTVx _, addIVx _, ldFVx _, ldBVx _, storeRegs _,
    loadRegs _]

/-- A field that a row's mask takes whole is the row's own in every word that matches. -/
theorem extractLsb'_of_covers {r : OpcodeRow} {w : Word} (a k : Nat) (h : r.covers w = true)
    (hm : r.mask.extractLsb' a k = BitVec.allOnes k) : w.extractLsb' a k = r.bits.extractLsb' a k := by
  have hw : w &&& r.mask = r.bits := eq_of_beq h
  rw [← hw, BitVec.extractLsb'_and, hm, BitVec.and_allOnes]

/-- A word that matches a row decodes to the row's instruction with the word's own fields: the mask takes exactly the
digits that the decoder looks at. -/
theorem decodeWord_of_covers {w : Word} {i : Instr} (h : (opcodeRow i).covers w = true) :
    ∃ j, decodeWord w = .ok j ∧ opcodeRow j = opcodeRow i := by
  have hop := extractLsb'_of_covers 12 4 h
  have hn := extractLsb'_of_covers 0 4 h
  have hnn := extractLsb'_of_covers 0 8 h
  cases i with
  | cls | ret =>
    have hw : w &&& 0xFFFF#16 = w := BitVec.and_allOnes
    obtain rfl := hw.symm.trans (eq_of_beq h)
    exact ⟨_, rfl, rfl⟩
  | jp | call | ldI | jpV0 | seImm | sneImm | ldImm | addImm | rnd | drw =>
    simp only [opcodeRow] at hop
    simp [decodeWord, opField, hop rfl, opcodeRow]
  | seReg | sneReg =>
    simp only [opcodeRow] at hop hn
    simp [decodeWord, opField, nField, hop rfl, hn rfl, opcodeRow]
  | ldReg | orReg | andReg | xorReg | addReg | subReg | shrReg | subnReg | shlReg =>
    simp only [opcodeRow] at hop hn
    simp [decodeWord, decodeGroup8, opField, nField, hop rfl, hn rfl, opcodeRow]
  | skp | sknp =>
    simp only [opcodeRow] at hop hnn
    simp [decodeWord, decodeGroupE, opField, nnField, hop rfl, hnn rfl, opcodeRow]
  | ldVxDT | ldVxK | ldDTVx | ldSTVx | addIVx | ldFVx | ldBVx | storeRegs | loadRegs =>
    simp only [opcodeRow] at hop hnn
    simp [decodeWord, decodeGroupF, opField, nnField, hop rfl, hnn rfl, opcodeRow]

/-- Settles O3: matching gives the digits the decoder looks at, and a decoded instruction's word, which is the word
itself by `encode_of_decodeWord`, matches its row. -/
theorem decodeSelectsTheMatchingRow : Obligations.DecodeSelectsTheMatchingRow := by
  unfold Obligations.DecodeSelectsTheMatchingRow
  intro w i
  constructor
  · exact decodeWord_of_covers
  · rintro ⟨j, hj, hrow⟩
    rw [← hrow, ← encode_of_decodeWord hj]
    exact covers_encode j

/-! ## The words that are no instruction -/

theorem toNat_opField (w : Word) : (opField w).toNat = w.toNat / 4096 := by
  have hw : w.toNat < 65536 := w.isLt
  rw [opField, BitVec.extractLsb'_toNat, Nat.shiftRight_eq_div_pow, Nat.mod_eq_of_lt (by omega)]

theorem toNat_nField (w : Word) : (nField w).toNat = w.toNat % 16 := rfl

theorem toNat_nnField (w : Word) : (nnField w).toNat = w.toNat % 256 := rfl

/-- The sets of R76: the words of groups 0, 5, 8, 9, E and F that are none of the 34 instructions. -/
def Illegal (w : Word) : Prop :=
  (w.toNat / 4096 = 0x0 ∧ w.toNat ≠ 0x00E0 ∧ w.toNat ≠ 0x00EE) ∨
  ((w.toNat / 4096 = 0x5 ∨ w.toNat / 4096 = 0x9) ∧ w.toNat % 16 ≠ 0) ∨
  (w.toNat / 4096 = 0x8 ∧ w.toNat % 16 ∈ [0x8, 0x9, 0xA, 0xB, 0xC, 0xD, 0xF]) ∨
  (w.toNat / 4096 = 0xE ∧ w.toNat % 256 ∉ [0x9E, 0xA1]) ∨
  (w.toNat / 4096 = 0xF ∧ w.toNat % 256 ∉ [0x07, 0x0A, 0x15, 0x18, 0x1E, 0x29, 0x33, 0x55, 0x65])

/-- A decoder that checks one more digit refuses the word exactly when the check fails. -/
theorem checked_error_iff {p : Prop} [Decidable p] {i : Instr} {w : Word} {e : Reject} :
    (if p then Except.ok i else Except.error (.unknown w)) = .error e ↔ ¬ p ∧ e = .unknown w := by
  split <;> simp_all [eq_comm]

theorem decodeGroup0_error_iff (w : Word) (e : Reject) :
    decodeGroup0 w = .error e ↔ (w.toNat ≠ 0x00E0 ∧ w.toNat ≠ 0x00EE) ∧ e = .unknown w := by
  have hcls : w = 0x00E0#16 ↔ w.toNat = 0x00E0 := BitVec.toNat_inj.symm
  have hret : w = 0x00EE#16 ↔ w.toNat = 0x00EE := BitVec.toNat_inj.symm
  simp only [decodeGroup0, hcls, hret]
  split
  · simp_all
  · rw [checked_error_iff]
    simp_all

theorem decodeGroup8_error_iff (w : Word) (e : Reject) :
    decodeGroup8 w = .error e ↔ w.toNat % 16 ∈ [0x8, 0x9, 0xA, 0xB, 0xC, 0xD, 0xF] ∧ e = .unknown w := by
  have hlt : w.toNat % 16 < 16 := Nat.mod_lt _ (by decide)
  rw [decodeGroup8, toNat_nField]
  generalize w.toNat % 16 = n at hlt ⊢
  interval_cases n <;> simp [eq_comm]

theorem decodeGroupE_error_iff (w : Word) (e : Reject) :
    decodeGroupE w = .error e ↔ w.toNat % 256 ∉ [0x9E, 0xA1] ∧ e = .unknown w := by
  rw [decodeGroupE, toNat_nnField]
  split <;> simp_all [eq_comm]

theorem decodeGroupF_error_iff (w : Word) (e : Reject) :
    decodeGroupF w = .error e ↔
      w.toNat % 256 ∉ [0x07, 0x0A, 0x15, 0x18, 0x1E, 0x29, 0x33, 0x55, 0x65] ∧ e = .unknown w := by
  rw [decodeGroupF, toNat_nnField]
  split <;> simp_all [eq_comm]

/-- The words that decode to no instruction are those of `Illegal`, each refused under its own value: one case for each
value of the top digit. -/
theorem decodeWord_error_iff (w : Word) (e : Reject) : decodeWord w = .error e ↔ Illegal w ∧ e = .unknown w := by
  have hlt : w.toNat / 4096 < 16 := by
    have hw : w.toNat < 65536 := w.isLt
    omega
  have hn : nField w = 0#4 ↔ w.toNat % 16 = 0 := BitVec.toNat_inj.symm
  rw [decodeWord, toNat_opField, Illegal]
  generalize w.toNat / 4096 = op at hlt ⊢
  interval_cases op <;>
    simp [hn, checked_error_iff, decodeGroup0_error_iff, decodeGroup8_error_iff, decodeGroupE_error_iff,
      decodeGroupF_error_iff]

/-- Settles O4: both halves are `decodeWord_error_iff`. -/
theorem illegalWordsAreUnknown : Obligations.IllegalWordsAreUnknown := by
  unfold Obligations.IllegalWordsAreUnknown
  intro w
  have hill := decodeWord_error_iff w (.unknown w)
  exact ⟨hill.trans (and_iff_left rfl), fun e he => ((decodeWord_error_iff w e).mp he).2⟩

/-- Settles O5: the ten words are closed terms, which the decoder evaluates (vectors TE1 to TE10). -/
theorem specExampleWordsDecode : Obligations.SpecExampleWordsDecode := by
  unfold Obligations.SpecExampleWordsDecode
  decide

end Sys2Proof
end

section
/-! What the execute phase leaves alone (spec/10_state.md R20, R21, R35): every instruction changes only the elements,
and writes only the general registers, that the tables give it. -/

namespace Sys2Proof.Machine

/-! ## The three meanings that branch on the state, branch by branch -/

theorem execRet_of_pos {s : State} (h : 0 < s.sp.val) :
    execRet s = .next { s with sp := ⟨s.sp.val - 1, by omega⟩, pc := s.stackAt ⟨s.sp.val - 1, by omega⟩ } := by
  rcases execRet_cases s with ⟨_, he⟩ | ⟨hzero, _⟩
  · exact he
  · omega

theorem execRet_of_empty {s : State} (h : ¬ 0 < s.sp.val) : execRet s = .next (s.raiseHere .stackUnderflow) := by
  rcases execRet_cases s with ⟨hpos, _⟩ | ⟨_, he⟩
  · exact absurd hpos h
  · exact he

theorem execCall_of_lt {s : State} (nnn : Addr) (h : s.sp.val < 16) :
    execCall nnn s =
      .next { s with stack := s.stack.set s.sp.val s.pc, sp := ⟨s.sp.val + 1, by omega⟩, pc := zext16 nnn } := by
  rcases execCall_cases nnn s with ⟨_, he⟩ | ⟨hfull, _⟩
  · exact he
  · omega

theorem execCall_of_full {s : State} (nnn : Addr) (h : ¬ s.sp.val < 16) :
    execCall nnn s = .next (s.raiseHere .stackOverflow) := by
  rcases execCall_cases nnn s with ⟨hlt, _⟩ | ⟨_, he⟩
  · exact absurd hlt h
  · exact he

theorem execLdVxK_of_some {s : State} {k : Key} (x : Reg) (h : s.lowestKey = some k) :
    execLdVxK x s = .next (s.setReg x (byteOfKey k)) := by
  rw [execLdVxK, h]

theorem execLdVxK_of_none {s : State} (x : Reg) (h : s.lowestKey = none) : execLdVxK x s = .next (s.jump s.pc0) := by
  rw [execLdVxK, h]

/-! ## Frames -/

theorem OnlyChanges.mono {es fs : List Element} {s t : State} (h : OnlyChanges es s t) (hsub : es ⊆ fs) :
    OnlyChanges fs s t :=
  fun e he => h e fun hmem => he (hsub hmem)

theorem OnlyChanges.trans {es fs : List Element} {s t u : State} (h : OnlyChanges es s t) (h' : OnlyChanges fs t u) :
    OnlyChanges (es ++ fs) s u := by
  intro e he
  rw [List.mem_append, not_or] at he
  have hst := h e he.left
  have htu := h' e he.right
  cases e with
  | registers => exact fun r => (htu r).trans (hst r)
  | memory => exact fun a => (htu a).trans (hst a)
  | callStack => exact ⟨htu.left.trans hst.left, htu.right.trans hst.right⟩
  | _ => exact Eq.trans htu hst

theorem onlyChanges_refl (s : State) : OnlyChanges [] s s := by
  intro e _
  cases e with
  | registers | memory => exact fun _ => rfl
  | callStack => exact ⟨rfl, rfl⟩
  | _ => rfl

theorem onlyChanges_flagThenResult (s : State) (x : Reg) (f : Bool) (v : Byte) :
    OnlyChanges [.registers] s (s.flagThenResult x f v) :=
  onlyChanges_registers s _

theorem onlyChanges_draws (s : State) (n : Nat) : OnlyChanges [.draws] s { s with draws := n } := by
  intro e he
  cases e with
  | draws => simp at he
  | registers | memory => exact fun _ => rfl
  | callStack => exact ⟨rfl, rfl⟩
  | _ => rfl

theorem onlyChanges_randomInto (s : State) (b : Byte) (x : Reg) (nn : Byte) :
    OnlyChanges [.registers, .draws] s (s.randomInto b x nn) :=
  (onlyChanges_setReg s x _).trans (onlyChanges_draws _ _)

theorem onlyChanges_px (s : State) (d : Display) : OnlyChanges [.display] s { s with px := d } := by
  intro e he
  cases e with
  | display => simp at he
  | registers | memory => exact fun _ => rfl
  | callStack => exact ⟨rfl, rfl⟩
  | _ => rfl

theorem onlyChanges_px_setReg (s : State) (d : Display) (x : Reg) (v : Byte) :
    OnlyChanges [.registers, .display] s ({ s with px := d }.setReg x v) :=
  ((onlyChanges_px s d).trans (onlyChanges_setReg _ x v)).mono (by simp)

theorem onlyChanges_DT (s : State) (v : Byte) : OnlyChanges [.delayTimer] s { s with DT := v } := by
  intro e he
  cases e with
  | delayTimer => simp at he
  | registers | memory => exact fun _ => rfl
  | callStack => exact ⟨rfl, rfl⟩
  | _ => rfl

theorem onlyChanges_ST (s : State) (v : Byte) : OnlyChanges [.soundTimer] s { s with ST := v } := by
  intro e he
  cases e with
  | soundTimer => simp at he
  | registers | memory => exact fun _ => rfl
  | callStack => exact ⟨rfl, rfl⟩
  | _ => rfl

theorem onlyChanges_storeRegisters (s : State) (k : Nat) : OnlyChanges [.memory] s (s.storeRegisters k) := by
  obtain ⟨m, hm, _⟩ := s.storeRegisters_spec k
  rw [hm]
  exact onlyChanges_mem s m

theorem onlyChanges_loadRegisters (s : State) (k : Nat) : OnlyChanges [.registers] s (s.loadRegisters k) := by
  obtain ⟨v, hv⟩ := s.loadRegisters_spec k
  rw [hv]
  exact onlyChanges_registers s v

/-- An instruction answers a next state in which only its own elements differ. -/
theorem exec_onlyChanges (i : Instr) (s : State) : ∃ t, exec i s = .next t ∧ OnlyChanges (executeWrites i) s t := by
  cases i with
  | cls => exact ⟨_, rfl, onlyChanges_px s _⟩
  | drw => exact ⟨_, rfl, onlyChanges_px_setReg s _ _ _⟩
  | jp | jpV0 => exact ⟨_, rfl, onlyChanges_jump s _⟩
  | seImm | sneImm | seReg | sneReg | skp | sknp => exact ⟨_, rfl, onlyChanges_skipIf s _⟩
  | ldImm | addImm | ldReg | orReg | andReg | xorReg | ldVxDT => exact ⟨_, rfl, onlyChanges_setReg s _ _⟩
  | addReg | subReg | shrReg | subnReg | shlReg => exact ⟨_, rfl, onlyChanges_flagThenResult s _ _ _⟩
  | rnd => exact ⟨_, rfl, onlyChanges_randomInto s _ _ _⟩
  | ldI | addIVx | ldFVx => exact ⟨_, rfl, onlyChanges_setI s _⟩
  | ldDTVx => exact ⟨_, rfl, onlyChanges_DT s _⟩
  | ldSTVx => exact ⟨_, rfl, onlyChanges_ST s _⟩
  | ldBVx => exact ⟨_, rfl, onlyChanges_mem s _⟩
  | storeRegs => exact ⟨_, rfl, onlyChanges_storeRegisters s _⟩
  | loadRegs => exact ⟨_, rfl, onlyChanges_loadRegisters s _⟩
  | ret =>
    rcases execRet_cases s with ⟨_, he⟩ | ⟨_, he⟩
    · exact ⟨_, he, (onlyChanges_stack_pc s _ s.stack _).mono (by decide)⟩
    · exact ⟨_, he, (onlyChanges_raiseHere s _).mono (by decide)⟩
  | call nnn =>
    rcases execCall_cases nnn s with ⟨_, he⟩ | ⟨_, he⟩
    · exact ⟨_, he, (onlyChanges_stack_pc s _ _ _).mono (by simp [executeWrites])⟩
    · exact ⟨_, he, (onlyChanges_raiseHere s _).mono (by simp [executeWrites])⟩
  | ldVxK x =>
    rcases execLdVxK_cases x s with ⟨_, _, he⟩ | ⟨_, he⟩
    · exact ⟨_, he, (onlyChanges_setReg s _ _).mono (by simp [executeWrites])⟩
    · exact ⟨_, he, (onlyChanges_jump s _).mono (by simp [executeWrites])⟩

theorem onlyChanges_of_exec {i : Instr} {s t : State} (h : exec i s = .next t) : OnlyChanges (executeWrites i) s t := by
  obtain ⟨u, hu, hframe⟩ := exec_onlyChanges i s
  obtain rfl := Host.Outcome.next.inj (hu.symm.trans h)
  exact hframe

/-- Settles O17: the frame of each shared operation, case by case. -/
theorem executeChangesOnlyItsElements : Obligations.ExecuteChangesOnlyItsElements := by
  unfold Obligations.ExecuteChangesOnlyItsElements
  exact fun _ _ _ => onlyChanges_of_exec

/-! ## Registers -/

theorem keepsRegsBut_flagThenResult (s : State) (x : Reg) (f : Bool) (v : Byte) :
    KeepsRegsBut [x, regF] s (s.flagThenResult x f v) := by
  intro r hr
  simp only [List.mem_cons, List.not_mem_nil, or_false, not_or] at hr
  obtain ⟨hx, hF⟩ := hr
  rw [State.reg_flagThenResult, if_neg hx, if_neg hF]

theorem reg_loadRegisters_of_gt (s : State) {x r : Reg} (h : x < r) : (s.loadRegisters (x.val + 1)).reg r = s.reg r := by
  have hlt : x.val < r.val := h
  rw [State.reg_loadRegisters s _ (by omega), if_neg (by omega)]

/-- An instruction that has no row in the register tables keeps them all; the others write their destination, the flag
writers `VF` too, and `Fx65` the registers up to `x`. -/
theorem reg_of_exec {i : Instr} {s t : State} (h : exec i s = .next t) {r : Reg} (hr : writesReg i r = false) :
    t.reg r = s.reg r := by
  by_cases hframe : Element.registers ∈ executeWrites i
  · cases i with
    | ldImm x | addImm x | ldReg x | orReg x | andReg x | xorReg x | ldVxDT x | rnd x =>
      cases h
      exact s.reg_setReg_of_ne _ (by simpa [writesReg] using hr)
    | addReg x | subReg x | shrReg x | subnReg x | shlReg x =>
      cases h
      exact keepsRegsBut_flagThenResult s x _ _ r (by simpa [writesReg] using hr)
    | drw x y n =>
      cases h
      exact State.reg_setReg_of_ne _ _ (by simpa [writesReg] using hr)
    | loadRegs x =>
      cases h
      exact reg_loadRegisters_of_gt s (by simpa [writesReg] using hr)
    | ldVxK x =>
      rcases execLdVxK_cases x s with ⟨k, _, he⟩ | ⟨_, he⟩ <;> cases he.symm.trans h
      · exact s.reg_setReg_of_ne _ (by simpa [writesReg] using hr)
      · rfl
    | _ => simp [executeWrites] at hframe
  · exact onlyChanges_of_exec h .registers hframe r

/-- Settles O18: `reg_of_exec`. -/
theorem executeWritesOnlyItsRegisters : Obligations.ExecuteWritesOnlyItsRegisters := by
  unfold Obligations.ExecuteWritesOnlyItsRegisters
  exact fun _ _ _ h _ => reg_of_exec h

end Sys2Proof.Machine
end

section
/-! The step around the execute phase (spec/40_cycle.md R90 to R98): what it answers from a halted and from a running
core, and what a completed step does to the timers, the draw flag and the program counter. -/

namespace Sys2Proof.Machine

/-! ## The instruction fetched -/

theorem Fetches.running {s : State} {i : Instr} (h : Fetches s i) : s.halted = false := h.left

theorem Fetches.pc_lt {s : State} {i : Instr} (h : Fetches s i) : s.pc.toNat + 1 < 4096 := h.right.left

theorem fetchedInstr_of_fetches {s : State} {i : Instr} (h : Fetches s i) : fetchedInstr s = some i := by
  obtain ⟨_, hpc, hd⟩ := h
  rw [fetchedInstr, if_pos hpc, hd]

theorem fetchedInstr_of_outOfBounds {s : State} (h : 4096 ≤ s.pc.toNat + 1) : fetchedInstr s = none :=
  if_neg (Nat.not_lt.mpr h)

theorem fetchedInstr_of_unknown {s : State} {e : Reject} (h : decodeWord s.fetchWord = .error e) :
    fetchedInstr s = none := by
  rw [State.fetchWord] at h
  rw [fetchedInstr, h, ite_self]

/-- A core that runs and fetches an instruction within memory executes it. -/
theorem fetches_of_fetchedInstr {s : State} {i : Instr} (hrun : s.halted = false) (h : fetchedInstr s = some i) :
    Fetches s i := by
  have hpc : s.pc.toNat + 1 < 4096 := by
    by_contra hout
    simp [fetchedInstr_of_outOfBounds (Nat.not_lt.mp hout)] at h
  cases hd : decodeWord s.fetchWord with
  | error e => simp [fetchedInstr_of_unknown hd] at h
  | ok j =>
    have hj : Fetches s j := ⟨hrun, hpc, hd⟩
    obtain rfl := Option.some.inj ((fetchedInstr_of_fetches hj).symm.trans h)
    exact hj

/-- A step that decodes ends from the state its instruction answers. -/
theorem step_of_exec {s u : State} {i : Instr} (h : s.halted = false) (hb : s.fetchOutOfBounds = false)
    (hd : decodeWord s.fetchWord = .ok i) (he : exec i s.fetched = .next u) : step s = .next (u.finish s.px) := by
  rw [step_of_decoded h hb hd, he]

/-- Everything a step of a running core can do, by what it fetches. -/
theorem step_running_cases {s : State} (hrun : s.halted = false) :
    (4096 ≤ s.pc.toNat + 1 ∧ step s = .next (s.raise .outOfBoundsFetch 0x0000#16 s.pc)) ∨
      (s.pc.toNat + 1 < 4096 ∧ (∃ e, decodeWord s.fetchWord = .error e) ∧
        step s = .next (if s.cfg.strictDecode then s.fetched.raiseHere .unknownOpcode else s.fetched.noOp)) ∨
      ∃ i u, Fetches s i ∧ exec i s.fetched = .next u ∧ step s = .next (u.finish s.px) := by
  rcases Nat.lt_or_ge (s.pc.toNat + 1) 4096 with hpc | hpc
  · have hin := State.fetchOutOfBounds_of_lt hpc
    cases hd : decodeWord s.fetchWord with
    | error e => exact .inr (.inl ⟨hpc, ⟨e, rfl⟩, step_of_unknown hrun hin hd⟩)
    | ok i =>
      obtain ⟨u, he, _⟩ := exec_onlyChanges i s.fetched
      exact .inr (.inr ⟨i, u, ⟨hrun, hpc, hd⟩, he, step_of_exec hrun hin hd he⟩)
  · exact .inl ⟨hpc, step_of_outOfBounds hrun (State.fetchOutOfBounds_of_le hpc)⟩

/-- Everything a step that leaves the core running can have done: the lenient no-op, or a decoded instruction. -/
theorem step_completed_cases {s t : State} (hrun : s.halted = false) (hs : step s = .next t) (ht : t.halted = false) :
    (fetchedInstr s = none ∧ t = s.fetched.noOp) ∨
      ∃ i u, Fetches s i ∧ exec i s.fetched = .next u ∧ t = u.complete s.px := by
  rcases step_running_cases hrun with ⟨_, h⟩ | ⟨_, ⟨e, hd⟩, h⟩ | ⟨i, u, hf, he, h⟩ <;> cases h.symm.trans hs
  · exact absurd ht Bool.noConfusion
  · cases hc : s.cfg.strictDecode with
    | true => exact absurd (hc ▸ ht) Bool.noConfusion
    | false => exact .inl ⟨fetchedInstr_of_unknown hd, rfl⟩
  · cases hu : u.halted with
    | true => rw [State.finish_of_halted _ hu, hu] at ht; cases ht
    | false => exact .inr ⟨i, u, hf, he, State.finish_of_running _ hu⟩

/-- A step whose execute phase keeps the fault record completes. -/
theorem step_of_fault_eq {s u : State} {i : Instr} (hf : Fetches s i) (he : exec i s.fetched = .next u)
    (hu : u.fault = s.fault) : step s = .next (u.complete s.px) :=
  step_of_fetches hf he ((State.halted_congr hu).trans hf.running)

/-! ## Halted cores and runs -/

/-- Settles O8: a halted core stays, and a running one answers in each case of `step_running_cases`. -/
theorem stepAnswersANextStateFromEveryState : Obligations.StepAnswersANextStateFromEveryState := by
  unfold Obligations.StepAnswersANextStateFromEveryState
  intro s
  cases hrun : s.halted with
  | true => exact ⟨s, step_of_halted hrun⟩
  | false =>
    rcases step_running_cases hrun with ⟨_, h⟩ | ⟨_, _, h⟩ | ⟨_, _, _, _, h⟩
    all_goals exact ⟨_, h⟩

theorem core_run_succ (M : Host.Core) {s t : M.State} (k : Nat) (h : M.step s = .next t) :
    M.run (k + 1) s = M.run k t := by
  rw [Host.Core.run, h]

theorem run_succ {s t : State} (k : Nat) (h : step s = .next t) :
    Host.Core.run core (k + 1) s = Host.Core.run core k t :=
  core_run_succ core k h

theorem exists_next_running_iff (s : State) :
    (∃ t : State, (.next s : Host.Outcome State Fault Refusal) = .next t ∧ t.halted = false) ↔ s.halted = false := by
  simp

theorem runsSafely_succ {s t : State} (k : Nat) (h : step s = .next t) :
    runsSafely (k + 1) s = (!s.halted && runsSafely k t) := by
  rw [runsSafely, h]

theorem run_of_halted (k : Nat) {s : State} (h : s.halted = true) : Host.Core.run core k s = .next s := by
  induction k with
  | zero => rfl
  | succ k ih => rw [run_succ k (step_of_halted h), ih]

/-- Settles O9: each step of a halted core answers the state itself. -/
theorem haltedCoreNeverMoves : Obligations.HaltedCoreNeverMoves := by
  unfold Obligations.HaltedCoreNeverMoves
  exact fun k _ => run_of_halted k

/-- Settles O10, by induction on the step count: a halt met on the way is where the run ends. -/
theorem safeRunIsARunThatEndsUnhalted : Obligations.SafeRunIsARunThatEndsUnhalted := by
  unfold Obligations.SafeRunIsARunThatEndsUnhalted
  intro k s
  induction k generalizing s with
  | zero =>
    rw [runsSafely, Bool.not_eq_true']
    exact (exists_next_running_iff s).symm
  | succ k ih =>
    obtain ⟨t, hstep⟩ := stepAnswersANextStateFromEveryState s
    rw [runsSafely_succ k hstep]
    cases hrun : s.halted with
    | true =>
      rw [run_of_halted (k + 1) hrun, Bool.not_true, Bool.false_and]
      refine iff_of_false Bool.false_ne_true fun hend => ?_
      exact Bool.false_ne_true (((exists_next_running_iff s).mp hend).symm.trans hrun)
    | false => rw [run_succ k hstep, Bool.not_false, Bool.true_and, ih]

end Sys2Proof.Machine
end

section
/-! The faults of a step (spec/60_exceptions.md R160 to R165): the table of causes decides whether a running core's step
raises one, and which. -/

namespace Sys2Proof.Machine

/-! ## The table of causes -/

theorem raisedFault_of_outOfBounds {s : State} (h : 4096 ≤ s.pc.toNat + 1) : raisedFault s = some .outOfBoundsFetch :=
  if_pos h

theorem raisedFault_of_unknown {s : State} (hpc : s.pc.toNat + 1 < 4096) (h : fetchedInstr s = none) :
    raisedFault s = if s.cfg.strictDecode then some .unknownOpcode else none := by
  rw [raisedFault, if_neg (Nat.not_le.mpr hpc), h]

theorem raisedFault_of_call {s : State} {nnn : Addr} (h : Fetches s (.call nnn)) :
    raisedFault s = if s.sp.val = 16 then some .stackOverflow else none := by
  rw [raisedFault, if_neg (Nat.not_le.mpr h.pc_lt), fetchedInstr_of_fetches h]

theorem raisedFault_of_ret {s : State} (h : Fetches s .ret) :
    raisedFault s = if s.sp.val = 0 then some .stackUnderflow else none := by
  rw [raisedFault, if_neg (Nat.not_le.mpr h.pc_lt), fetchedInstr_of_fetches h]

theorem raisedFault_of_no_fault {s : State} {i : Instr} (h : Fetches s i)
    (hi : Element.faultRecord ∉ executeWrites i) : raisedFault s = none := by
  rw [raisedFault, if_neg (Nat.not_le.mpr h.pc_lt), fetchedInstr_of_fetches h]
  cases i with
  | call | ret => simp [executeWrites] at hi
  | _ => rfl

theorem faultRecord_mem_executeWrites {i : Instr} (h : Element.faultRecord ∈ executeWrites i) :
    i = .ret ∨ ∃ nnn, i = .call nnn := by
  cases i with
  | ret => exact .inl rfl
  | call nnn => exact .inr ⟨nnn, rfl⟩
  | _ => simp [executeWrites] at h

/-- A step of a running core raises the fault of the table, from the state before the fetch or from the state fetched,
or keeps the fault record where the table gives none. -/
theorem step_fault_cases {s : State} (hrun : s.halted = false) :
    (raisedFault s = some .outOfBoundsFetch ∧ step s = .next (s.raise .outOfBoundsFetch 0x0000#16 s.pc)) ∨
      (∃ f, f ≠ .outOfBoundsFetch ∧ raisedFault s = some f ∧ step s = .next (s.fetched.raiseHere f)) ∨
      (raisedFault s = none ∧ ∃ t, step s = .next t ∧ t.fault = s.fault) := by
  rcases step_running_cases hrun with ⟨hpc, h⟩ | ⟨hpc, ⟨e, hd⟩, h⟩ | ⟨i, u, hf, he, h⟩
  · exact .inl ⟨raisedFault_of_outOfBounds hpc, h⟩
  · have htable := raisedFault_of_unknown hpc (fetchedInstr_of_unknown hd)
    cases hc : s.cfg.strictDecode with
    | true =>
      rw [hc] at htable h
      exact .inr (.inl ⟨.unknownOpcode, by decide, htable, h⟩)
    | false =>
      rw [hc] at htable h
      exact .inr (.inr ⟨htable, _, h, rfl⟩)
  · by_cases hi : Element.faultRecord ∈ executeWrites i
    · rcases faultRecord_mem_executeWrites hi with rfl | ⟨nnn, rfl⟩
      · have htable := raisedFault_of_ret hf
        rcases execRet_cases s.fetched with ⟨hpos, hret⟩ | ⟨hzero, hret⟩
        · exact .inr (.inr ⟨htable.trans (if_neg (Nat.ne_of_gt hpos)), _, step_of_fault_eq hf hret rfl, rfl⟩)
        · exact .inr (.inl ⟨.stackUnderflow, by decide, htable.trans (if_pos hzero), step_of_fetches_raise hf hret⟩)
      · have htable := raisedFault_of_call hf
        rcases execCall_cases nnn s.fetched with ⟨hlt, hcall⟩ | ⟨hfull, hcall⟩
        · exact .inr (.inr ⟨htable.trans (if_neg (Nat.ne_of_lt hlt)), _, step_of_fault_eq hf hcall rfl, rfl⟩)
        · exact .inr (.inl ⟨.stackOverflow, by decide, htable.trans (if_pos hfull), step_of_fetches_raise hf hcall⟩)
    · have hkeep : u.fault = s.fault := onlyChanges_of_exec he .faultRecord hi
      exact .inr (.inr ⟨raisedFault_of_no_fault hf hi, _, step_of_fault_eq hf he hkeep, hkeep⟩)

theorem State.fault_cause_of_running {s : State} (h : s.halted = false) : s.fault.cause = none :=
  Option.isNone_iff_eq_none.mp (Option.isSome_eq_false_iff.mp h)

/-- A fault taken after the fetch records the address before it (R11, R161). -/
theorem State.pc0_fetched (s : State) : s.fetched.pc0 = s.pc :=
  BitVec.add_sub_cancel s.pc 2#16

theorem raiseHere_fetched_eq (s : State) (f : Fault) :
    s.fetched.raiseHere f = { s with
      currentOpcode := s.fetchWord, pc := s.pc + 2#16, fault := ⟨some f, s.fetchWord, s.pc⟩ } := by
  rw [State.raiseHere, State.pc0_fetched]
  rfl

/-- Settles O11: the three cases of `step_fault_cases`, whose next states are those the statement writes out. -/
theorem stepRaisesExactlyTheTabledFault : Obligations.StepRaisesExactlyTheTabledFault := by
  unfold Obligations.StepRaisesExactlyTheTabledFault
  intro s hrun
  rcases step_fault_cases hrun with ⟨htable, h⟩ | ⟨f, hne, htable, h⟩ | ⟨htable, t, h, hkeep⟩
  · rw [htable]
    exact ⟨_, h, rfl⟩
  · rw [htable]
    refine ⟨_, h, ?_⟩
    cases f with
    | outOfBoundsFetch => exact absurd rfl hne
    | _ => exact raiseHere_fetched_eq s _
  · rw [htable]
    exact ⟨t, h, hkeep, (State.halted_congr hkeep).trans hrun⟩

/-- Settles O57: the record holds the table's cause, or still none. -/
theorem faultCodesFollowTheTable : Obligations.FaultCodesFollowTheTable := by
  unfold Obligations.FaultCodesFollowTheTable
  intro s hrun
  rcases step_fault_cases hrun with ⟨htable, h⟩ | ⟨f, _, htable, h⟩ | ⟨htable, t, h, hkeep⟩
  · rw [htable]
    exact ⟨_, h, rfl⟩
  · rw [htable]
    refine ⟨_, h, ?_⟩
    cases f <;> rfl
  · rw [htable]
    exact ⟨t, h, by rw [hkeep, State.fault_cause_of_running hrun]; rfl⟩

end Sys2Proof.Machine
end

section
/-! What a step that completes does to the timers, the draw flag and the program counter (spec/40_cycle.md R90 to R96,
R99): the frame of the execute phase, then the end of the step. -/

namespace Sys2Proof.Machine

/-- The no-op of a lenient core, as the changes of R77: the word, the advance, the draw flag and the ticks. -/
theorem noOp_fetched_eq (s : State) :
    s.fetched.noOp = { s with
      currentOpcode := s.fetchWord, pc := s.pc + 2#16, drawFlag := false,
      DT := BitVec.ofNat 8 (s.DT.toNat - 1), ST := BitVec.ofNat 8 (s.ST.toNat - 1) } := by
  rw [← tickByte_eq, ← tickByte_eq]
  rfl

/-- Settles O12: no fetch and room for one leave the unknown word, which a lenient core skips. -/
theorem lenientUnknownWordIsANoOp : Obligations.LenientUnknownWordIsANoOp := by
  unfold Obligations.LenientUnknownWordIsANoOp
  intro s hrun hpc hlenient hnone
  rcases step_running_cases hrun with ⟨hout, _⟩ | ⟨_, _, h⟩ | ⟨i, _, hf, _, _⟩
  · omega
  · rw [h, hlenient]
    exact congrArg Host.Outcome.next (noOp_fetched_eq s)
  · exact absurd hf (hnone i)

/-- The end of a step that completes, as the changes of R95 and R96. -/
theorem complete_eq (s : State) (d : Display) :
    s.complete d = { s with
      drawFlag := decide (s.px ≠ d)
      DT := BitVec.ofNat 8 (s.DT.toNat - 1)
      ST := BitVec.ofNat 8 (s.ST.toNat - 1) } := by
  rw [← tickByte_eq, ← tickByte_eq]
  rfl

/-- Settles O6: the state fetched is the one the statement writes out, and the step ends as `State.finish` says. -/
theorem stepRunsTheDecodedInstruction : Obligations.StepRunsTheDecodedInstruction := by
  unfold Obligations.StepRunsTheDecodedInstruction
  intro s i hf
  obtain ⟨hrun, hpc, hd⟩ := hf
  rw [step_of_decoded hrun (State.fetchOutOfBounds_of_lt hpc) hd]
  simp only [State.finish, complete_eq]
  rfl

/-! ## Timers -/

theorem DT_of_exec {i : Instr} {s t : State} (h : exec i s = .next t) :
    t.DT = match some i with | some (.ldDTVx x) => s.reg x | _ => s.DT := by
  cases i with
  | ldDTVx x => cases h; rfl
  | _ => exact onlyChanges_of_exec h .delayTimer (by simp [executeWrites])

theorem ST_of_exec {i : Instr} {s t : State} (h : exec i s = .next t) :
    t.ST = match some i with | some (.ldSTVx x) => s.reg x | _ => s.ST := by
  cases i with
  | ldSTVx x => cases h; rfl
  | _ => exact onlyChanges_of_exec h .soundTimer (by simp [executeWrites])

/-- Settles O13: the tick is the last phase, and only `Fx15` and `Fx18` write a timer before it. -/
theorem timersTickOnceInEveryCompletedStep : Obligations.TimersTickOnceInEveryCompletedStep := by
  unfold Obligations.TimersTickOnceInEveryCompletedStep
  intro s t hrun hs ht
  rcases step_completed_cases hrun hs ht with ⟨hnone, rfl⟩ | ⟨i, u, hf, he, rfl⟩
  · rw [hnone]
    exact ⟨toNat_tickByte s.DT, toNat_tickByte s.ST⟩
  · rw [fetchedInstr_of_fetches hf, State.complete_DT, State.complete_ST, toNat_tickByte, toNat_tickByte,
      DT_of_exec he, ST_of_exec he]
    exact ⟨rfl, rfl⟩

/-! ## Draw flag -/

theorem display_ne_iff {d e : Display} : d ≠ e ↔ ∃ r c, pixel d r c ≠ pixel e r c := by
  constructor
  · intro hne
    by_contra hall
    push Not at hall
    exact hne (display_ext hall)
  · rintro ⟨r, c, hpx⟩ rfl
    exact hpx rfl

theorem display_mem_executeWrites {i : Instr} (h : Element.display ∈ executeWrites i) :
    i = .cls ∨ ∃ x y n, i = .drw x y n := by
  cases i with
  | cls => exact .inl rfl
  | drw x y n => exact .inr ⟨x, y, n, rfl⟩
  | _ => simp [executeWrites] at h

/-- Settles O14: the flag compares the displays, and a pixel that changed was changed by an instruction that may. -/
theorem drawFlagTellsWhetherAPixelChanged : Obligations.DrawFlagTellsWhetherAPixelChanged := by
  unfold Obligations.DrawFlagTellsWhetherAPixelChanged
  intro s t hrun hs ht
  rcases step_completed_cases hrun hs ht with ⟨_, rfl⟩ | ⟨i, u, hf, he, rfl⟩
  · simp
  · rw [State.complete_drawFlag, State.complete_px, decide_eq_true_iff]
    refine ⟨display_ne_iff, fun hchanged => ?_⟩
    rw [fetchedInstr_of_fetches hf]
    have hwrites : Element.display ∈ executeWrites i := by
      by_contra hnot
      exact hchanged (onlyChanges_of_exec he .display hnot)
    rcases display_mem_executeWrites hwrites with rfl | ⟨x, y, n, rfl⟩
    · exact .inl rfl
    · exact .inr ⟨x, y, n, rfl⟩

/-! ## Program counter -/

theorem toNat_add_two {a : Word} (h : a.toNat + 2 < 65536) : (a + 2#16).toNat = a.toNat + 2 :=
  BitVec.toNat_add_of_lt h

theorem toNat_pc_fetched {s : State} {i : Instr} (h : Fetches s i) : s.fetched.pc.toNat = s.pc.toNat + 2 := by
  have hpc := h.pc_lt
  exact toNat_add_two (by omega)

/-- A step whose execute phase keeps the fault record ends running, with the program counter that phase left. -/
theorem step_pc_of_fault_eq {s u : State} {i : Instr} (hf : Fetches s i) (he : exec i s.fetched = .next u)
    (hu : u.fault = s.fault) : ∃ t, step s = .next t ∧ t.pc = u.pc ∧ t.halted = false :=
  ⟨_, step_of_fault_eq hf he hu, rfl, (State.halted_congr hu).trans hf.running⟩

/-- Every instruction that can take a fault writes the program counter too. -/
theorem programCounter_mem_of_faultRecord_mem {i : Instr} (h : Element.faultRecord ∈ executeWrites i) :
    Element.programCounter ∈ executeWrites i := by
  rcases faultRecord_mem_executeWrites h with rfl | ⟨_, rfl⟩
  all_goals simp [executeWrites]

/-- Settles O15: the execute phase keeps the program counter the fetch left, and the fault record. -/
theorem plainInstructionsAdvanceByTwo : Obligations.PlainInstructionsAdvanceByTwo := by
  unfold Obligations.PlainInstructionsAdvanceByTwo
  intro s i hf hplain
  obtain ⟨u, he, hframe⟩ := exec_onlyChanges i s.fetched
  have hfault : u.fault = s.fault := hframe .faultRecord (mt programCounter_mem_of_faultRecord_mem hplain)
  have hpc : u.pc = s.fetched.pc := hframe .programCounter hplain
  obtain ⟨t, hstep, ht, hrun⟩ := step_pc_of_fault_eq hf he hfault
  exact ⟨t, hstep, by rw [ht, hpc, toNat_pc_fetched hf], hrun⟩

theorem exec_of_skipCondition {s : State} {i : Instr} {c : Bool} (h : skipCondition s i = some c) :
    exec i s = .next (s.skipIf c) := by
  cases i with
  | seImm | sneImm | seReg | sneReg | skp | sknp => cases h; rfl
  | _ => cases h

/-- Settles O16: the execute phase is `skipIf` on the condition, which the fetch does not change. -/
theorem takenSkipAdvancesByFour : Obligations.TakenSkipAdvancesByFour := by
  unfold Obligations.TakenSkipAdvancesByFour
  intro s i c hf hc
  have hcond : skipCondition s.fetched i = some c := by rw [← hc]; rfl
  have hpc := toNat_pc_fetched hf
  have hlt := hf.pc_lt
  obtain ⟨t, hstep, ht, hrun⟩ := step_pc_of_fault_eq hf (exec_of_skipCondition hcond) (State.skipIf_fault _ c)
  refine ⟨t, hstep, ?_, hrun⟩
  rw [ht, State.skipIf_pc]
  cases c with
  | true => exact (toNat_add_two (by omega)).trans (congrArg (· + 2) hpc)
  | false => exact hpc

end Sys2Proof.Machine
end

section
/-! What a step leaves alone (spec/10_state.md R26, R31, R35, R38): the elements that neither the phases around the
execute phase nor the instruction it executes write. -/

namespace Sys2Proof.Machine

/-! ## Frames of the phases -/

theorem onlyChanges_raise (s : State) (f : Fault) (w a : Word) : OnlyChanges [.faultRecord] s (s.raise f w a) := by
  intro e he
  cases e with
  | faultRecord => simp at he
  | registers | memory => exact fun _ => rfl
  | callStack => exact ⟨rfl, rfl⟩
  | _ => rfl

theorem onlyChanges_fetched (s : State) : OnlyChanges [.programCounter, .currentOpcode] s s.fetched := by
  intro e he
  cases e with
  | programCounter | currentOpcode => simp at he
  | registers | memory => exact fun _ => rfl
  | callStack => exact ⟨rfl, rfl⟩
  | _ => rfl

theorem onlyChanges_outputs (s : State) (d : Bool) (dt st : Byte) :
    OnlyChanges [.drawFlag, .delayTimer, .soundTimer] s { s with drawFlag := d, DT := dt, ST := st } := by
  intro e he
  cases e with
  | drawFlag | delayTimer | soundTimer => simp at he
  | registers | memory => exact fun _ => rfl
  | callStack => exact ⟨rfl, rfl⟩
  | _ => rfl

theorem onlyChanges_noOp (s : State) : OnlyChanges [.drawFlag, .delayTimer, .soundTimer] s s.noOp :=
  onlyChanges_outputs s _ _ _

theorem onlyChanges_complete (s : State) (d : Display) :
    OnlyChanges [.drawFlag, .delayTimer, .soundTimer] s (s.complete d) :=
  onlyChanges_outputs s _ _ _

theorem onlyChanges_finish (s : State) (d : Display) :
    OnlyChanges [.drawFlag, .delayTimer, .soundTimer] s (s.finish d) := by
  cases h : s.halted with
  | true =>
    rw [State.finish_of_halted d h]
    exact (onlyChanges_refl s).mono (List.nil_subset _)
  | false =>
    rw [State.finish_of_running d h]
    exact onlyChanges_complete s d

/-! ## The frame of a step -/

/-- The elements the phases around the execute phase write, and those a fault of theirs does. -/
def phaseWrites : List Element :=
  [.programCounter, .currentOpcode, .drawFlag, .delayTimer, .soundTimer, .faultRecord]

/-- A step that executes no instruction changes only what the other phases write; one that does ends from the state its
instruction answers. -/
theorem step_frame_cases {s t : State} (hs : step s = .next t) :
    ((s.halted = true ∨ fetchedInstr s = none) ∧ OnlyChanges phaseWrites s t) ∨
      ∃ i u, Fetches s i ∧ exec i s.fetched = .next u ∧ t = u.finish s.px := by
  cases hrun : s.halted with
  | true =>
    cases (step_of_halted hrun).symm.trans hs
    exact .inl ⟨.inl rfl, (onlyChanges_refl s).mono (List.nil_subset _)⟩
  | false =>
    rcases step_running_cases hrun with ⟨hpc, h⟩ | ⟨_, ⟨e, hd⟩, h⟩ | ⟨i, u, hf, he, h⟩ <;> cases h.symm.trans hs
    · exact .inl ⟨.inr (fetchedInstr_of_outOfBounds hpc), (onlyChanges_raise s _ _ _).mono (by decide)⟩
    · refine .inl ⟨.inr (fetchedInstr_of_unknown hd), ?_⟩
      split
      · exact ((onlyChanges_fetched s).trans (onlyChanges_raiseHere _ _)).mono (by decide)
      · exact ((onlyChanges_fetched s).trans (onlyChanges_noOp _)).mono (by decide)
    · exact .inr ⟨i, u, hf, he, rfl⟩

/-- A step keeps every element that neither the other phases nor the instruction it fetches write. -/
theorem step_agreeOn {s t : State} {e : Element} (hs : step s = .next t) (hphase : e ∉ phaseWrites)
    (hexec : ∀ i, Fetches s i → e ∉ executeWrites i) : agreeOn s t e := by
  rcases step_frame_cases hs with ⟨_, hframe⟩ | ⟨i, u, hf, he, rfl⟩
  · exact hframe e hphase
  · refine (((onlyChanges_fetched s).trans (onlyChanges_of_exec he)).trans (onlyChanges_finish u s.px)) e ?_
    have hi := hexec i hf
    simp [phaseWrites] at hphase
    simp [hi, hphase]

/-- Settles O19: no phase and no instruction writes the keypad or the configuration. -/
theorem stepNeverWritesKeypadOrConfiguration : Obligations.StepNeverWritesKeypadOrConfiguration := by
  unfold Obligations.StepNeverWritesKeypadOrConfiguration
  intro s t hs
  have hkey : ∀ i, Element.keypad ∉ executeWrites i := fun i => by cases i <;> simp [executeWrites]
  have hcfg : ∀ i, Element.config ∉ executeWrites i := fun i => by cases i <;> simp [executeWrites]
  exact ⟨step_agreeOn hs (by decide) fun i _ => hkey i, step_agreeOn hs (by decide) fun i _ => hcfg i⟩

/-! ## Memory -/

theorem memory_mem_executeWrites {i : Instr} (h : Element.memory ∈ executeWrites i) :
    (∃ x, i = .ldBVx x) ∨ ∃ x, i = .storeRegs x := by
  cases i with
  | ldBVx x => exact .inl ⟨x, rfl⟩
  | storeRegs x => exact .inr ⟨x, rfl⟩
  | _ => simp [executeWrites] at h

/-- What `Fx33` means (R133). -/
theorem exec_ldBVx (x : Reg) (s : State) :
    exec (.ldBVx x) s = .next (((s.storeByte (s.ea 0) (hundreds (s.reg x))).storeByte (s.ea 1)
      (tens (s.reg x))).storeByte (s.ea 2) (ones (s.reg x))) := rfl

/-- What `Fx55` means (R134). -/
theorem exec_storeRegs (x : Reg) (s : State) : exec (.storeRegs x) s = .next (s.storeRegisters (x.val + 1)) := rfl

/-- A byte after a store at an effective address (R136). -/
theorem State.byteAt_storeByte_ea (s t : State) (k : Nat) (v : Byte) (a : Nat) :
    (t.storeByte (s.ea k) v).byteAt a = if a % 4096 = s.ea k then v else t.byteAt a := by
  rw [State.byteAt_storeByte, Nat.mod_eq_of_lt (s.ea_lt k)]

/-- The bytes beside the three of `Fx33` are kept. -/
theorem byteAt_of_exec_ldBVx {x : Reg} {s t : State} (h : exec (.ldBVx x) s = .next t) {a : Nat}
    (ha : ∀ k < 3, a % 4096 ≠ s.ea k) : t.byteAt a = s.byteAt a := by
  cases (exec_ldBVx x s).symm.trans h
  rw [State.byteAt_storeByte_ea, if_neg (ha 2 (by decide)), State.byteAt_storeByte_ea, if_neg (ha 1 (by decide)),
    State.byteAt_storeByte_ea, if_neg (ha 0 (by decide))]

/-- The bytes beside the `x + 1` of `Fx55` are kept. -/
theorem byteAt_of_exec_storeRegs {x : Reg} {s t : State} (h : exec (.storeRegs x) s = .next t) {a : Nat}
    (ha : ∀ k ≤ x.val, a % 4096 ≠ s.ea k) : t.byteAt a = s.byteAt a := by
  cases (exec_storeRegs x s).symm.trans h
  exact s.byteAt_storeRegisters_of_ne _ a fun k hk => ha k (Nat.le_of_lt_succ hk)

/-- Settles O20: a byte that differs was written by the instruction fetched, at an address the fetch does not change. -/
theorem onlyBcdAndRegisterStoreChangeMemory : Obligations.OnlyBcdAndRegisterStoreChangeMemory := by
  unfold Obligations.OnlyBcdAndRegisterStoreChangeMemory
  intro s t a hs hne
  rcases step_frame_cases hs with ⟨_, hframe⟩ | ⟨i, u, hf, he, rfl⟩
  · exact absurd (hframe .memory (by decide) a) hne
  · have hfinish : (u.finish s.px).byteAt a = u.byteAt a := onlyChanges_finish u s.px .memory (by decide) a
    have hwritten : u.byteAt a ≠ s.fetched.byteAt a := fun h => hne (hfinish.trans h)
    have hmem : Element.memory ∈ executeWrites i := by
      by_contra hnot
      exact hwritten (onlyChanges_of_exec he .memory hnot a)
    rw [fetchedInstr_of_fetches hf]
    rcases memory_mem_executeWrites hmem with ⟨x, rfl⟩ | ⟨x, rfl⟩
    · refine .inl ⟨x, rfl, ?_⟩
      by_contra! hbeside
      exact hwritten (byteAt_of_exec_ldBVx he hbeside)
    · refine .inr ⟨x, rfl, ?_⟩
      by_contra! hbeside
      exact hwritten (byteAt_of_exec_storeRegs he hbeside)

/-! ## Random draws -/

theorem draws_mem_executeWrites {i : Instr} (h : Element.draws ∈ executeWrites i) : ∃ x nn, i = .rnd x nn := by
  cases i with
  | rnd x nn => exact ⟨x, nn, rfl⟩
  | _ => simp [executeWrites] at h

/-- Settles O21: `Cxnn` counts one draw, and no other instruction or phase writes the counter. -/
theorem oneDrawPerExecutedRandom : Obligations.OneDrawPerExecutedRandom := by
  unfold Obligations.OneDrawPerExecutedRandom
  intro s t hs
  constructor
  · rintro ⟨hrun, x, nn, hfetched⟩
    have hf := fetches_of_fetchedInstr hrun hfetched
    cases (step_of_fetches hf (u := s.fetched.randomInto (Config.rand8 s.draws) x nn) rfl hrun).symm.trans hs
    rfl
  · intro hnot
    refine step_agreeOn (e := .draws) hs (by decide) fun i hf hdraws => hnot ?_
    obtain ⟨x, nn, rfl⟩ := draws_mem_executeWrites hdraws
    exact ⟨hf.running, x, nn, fetchedInstr_of_fetches hf⟩

/-! ## Output state -/

/-- The state with other values in the sound timer and the draw flag, which only the host reads (R38). -/
def State.withOutputs (s : State) (st : Byte) (d : Bool) : State := { s with ST := st, drawFlag := d }

theorem State.skipIf_withOutputs (s : State) (st : Byte) (d c : Bool) :
    (s.withOutputs st d).skipIf c = (s.skipIf c).withOutputs st d := by
  cases c <;> rfl

theorem State.storeRegisters_withOutputs (s : State) (st : Byte) (d : Bool) (k : Nat) :
    (s.withOutputs st d).storeRegisters k = (s.storeRegisters k).withOutputs st d := by
  induction k with
  | zero => rfl
  | succ k ih => rw [State.storeRegisters, ih]; rfl

theorem State.loadRegisters_withOutputs (s : State) (st : Byte) (d : Bool) (k : Nat) :
    (s.withOutputs st d).loadRegisters k = (s.loadRegisters k).withOutputs st d := by
  induction k with
  | zero => rfl
  | succ k ih =>
    obtain ⟨v, hv⟩ := s.loadRegisters_spec k
    rw [State.loadRegisters, State.loadRegisters, ih, hv]
    rfl

/-- The execute phase reads neither the sound timer nor the draw flag; `current_opcode`, which a fault records, is the
same. -/
theorem exec_withOutputs (i : Instr) (s : State) (st : Byte) (d : Bool) :
    ∃ t st', exec i s = .next t ∧ exec i (s.withOutputs st d) = .next (t.withOutputs st' d) := by
  cases i with
  | ldSTVx x => exact ⟨_, s.reg x, rfl, rfl⟩
  | seImm | sneImm | seReg | sneReg | skp | sknp =>
    exact ⟨_, st, rfl, congrArg Host.Outcome.next (s.skipIf_withOutputs st d _)⟩
  | storeRegs => exact ⟨_, st, rfl, congrArg Host.Outcome.next (s.storeRegisters_withOutputs st d _)⟩
  | loadRegs => exact ⟨_, st, rfl, congrArg Host.Outcome.next (s.loadRegisters_withOutputs st d _)⟩
  | ret =>
    by_cases h : 0 < s.sp.val
    · exact ⟨_, st, execRet_of_pos h, execRet_of_pos (s := s.withOutputs st d) h⟩
    · exact ⟨_, st, execRet_of_empty h, execRet_of_empty (s := s.withOutputs st d) h⟩
  | call nnn =>
    by_cases h : s.sp.val < 16
    · exact ⟨_, st, execCall_of_lt nnn h, execCall_of_lt (s := s.withOutputs st d) nnn h⟩
    · exact ⟨_, st, execCall_of_full nnn h, execCall_of_full (s := s.withOutputs st d) nnn h⟩
  | ldVxK x =>
    cases h : s.lowestKey with
    | some k => exact ⟨_, st, execLdVxK_of_some x h, execLdVxK_of_some (s := s.withOutputs st d) x h⟩
    | none => exact ⟨_, st, execLdVxK_of_none x h, execLdVxK_of_none (s := s.withOutputs st d) x h⟩
  | _ => exact ⟨_, st, rfl, rfl⟩

theorem State.finish_withOutputs (s : State) (st : Byte) (d : Bool) (before : Display) :
    ∃ st' d', (s.withOutputs st d).finish before = (s.finish before).withOutputs st' d' := by
  cases h : s.halted with
  | true =>
    have h' : (s.withOutputs st d).halted = true := h
    exact ⟨st, d, by rw [State.finish_of_halted before h, State.finish_of_halted before h']⟩
  | false =>
    have h' : (s.withOutputs st d).halted = false := h
    exact ⟨tickByte st, decide (s.px ≠ before),
      by rw [State.finish_of_running before h, State.finish_of_running before h']; rfl⟩

/-- Settles O22: fetch sets `current_opcode` alike in both states, and each later phase commutes with other outputs. -/
theorem outputStateIsNeverRead : Obligations.OutputStateIsNeverRead := by
  unfold Obligations.OutputStateIsNeverRead
  intro s t st w d hs
  rcases step_cases hs with ⟨hrun, rfl⟩ | ⟨hrun, hout, rfl⟩ | ⟨hrun, hin, ⟨e, hd⟩, rfl⟩ |
    ⟨hrun, hin, i, u, hd, he, rfl⟩
  · exact ⟨_, step_of_halted hrun, rfl⟩
  · exact ⟨_, step_of_outOfBounds hrun hout, rfl⟩
  · refine ⟨_, step_of_unknown hrun hin hd, ?_⟩
    cases s.cfg.strictDecode <;> rfl
  · obtain ⟨v, st', hv, he'⟩ := exec_withOutputs i s.fetched st d
    cases hv.symm.trans he
    obtain ⟨st'', d', hfinish⟩ := State.finish_withOutputs u st' d s.px
    exact ⟨_, step_of_exec (s := { s with ST := st, currentOpcode := w, drawFlag := d }) hrun hin hd he', hfinish ▸ rfl⟩

end Sys2Proof.Machine
end

section
/-! The invariants of spec/10_state.md R37: every update keeps them under the bound of the field it writes, and so
does every instruction, every step and every move of the host. -/

namespace Sys2Proof.Machine

/-! ## Updates -/

theorem Inv.jump {s : State} {a : Word} (h : Inv s) (ha : a.toNat ≤ 0x10FE) : Inv (s.jump a) := by
  obtain ⟨hmem, hI, _, hstack⟩ := h
  exact ⟨hmem, hI, ha, hstack⟩

theorem Inv.setI {s : State} {v : Word} (h : Inv s) (hv : v.toNat < 4096) : Inv (s.setI v) := by
  obtain ⟨hmem, _, hpc, hstack⟩ := h
  exact ⟨hmem, hv, hpc, hstack⟩

theorem Inv.storeByte {s : State} (h : Inv s) (a : Nat) (v : Byte) : Inv (s.storeByte a v) := by
  obtain ⟨hmem, hI, hpc, hstack⟩ := h
  exact ⟨State.wf_storeByte a v hmem, hI, hpc, hstack⟩

theorem Inv.with_mem {s : State} {m : Memory} (h : Inv s) (hm : s.mem.wf = true → m.wf = true) :
    Inv { s with mem := m } := by
  obtain ⟨hmem, hI, hpc, hstack⟩ := h
  exact ⟨hm hmem, hI, hpc, hstack⟩

theorem Inv.skipIf {s : State} (h : Inv s) (c : Bool) (hpc : s.pc.toNat ≤ 0x1000) : Inv (s.skipIf c) := by
  cases c with
  | true => exact h.jump (by rw [toNat_add_two (by omega)]; omega)
  | false => exact h

/-- An entry in use is at most 0x1000, so a return leads there. -/
theorem Inv.pop {s : State} (h : Inv s) (hpos : 0 < s.sp.val) :
    Inv { s with sp := ⟨s.sp.val - 1, by omega⟩, pc := s.stackAt ⟨s.sp.val - 1, by omega⟩ } := by
  obtain ⟨hmem, hI, _, hstack⟩ := h
  have htop := hstack ⟨s.sp.val - 1, by omega⟩ (Nat.sub_lt hpos Nat.one_pos)
  exact ⟨hmem, hI, Nat.le_trans htop (by decide), fun k hk => hstack k (Nat.lt_of_lt_of_le hk (Nat.sub_le _ 1))⟩

/-- The entry pushed is the advanced program counter. -/
theorem Inv.push {s : State} (h : Inv s) (hlt : s.sp.val < 16) (hpc : s.pc.toNat ≤ 0x1000) {a : Word}
    (ha : a.toNat ≤ 0x10FE) :
    Inv { s with stack := s.stack.set s.sp.val s.pc, sp := ⟨s.sp.val + 1, by omega⟩, pc := a } := by
  obtain ⟨hmem, hI, _, hstack⟩ := h
  refine ⟨hmem, hI, ha, fun k hk => ?_⟩
  rcases Nat.lt_succ_iff_lt_or_eq.mp hk with hbelow | htop
  · have hkeep : (s.stack.set s.sp.val s.pc)[k.val] = s.stackAt k := Vector.getElem_set_ne hlt k.isLt (by omega)
    exact le_of_eq_of_le (congrArg BitVec.toNat hkeep) (hstack k hbelow)
  · have hnew : (s.stack.set s.sp.val s.pc)[k.val] = s.pc := by simp [htop]
    exact le_of_eq_of_le (congrArg BitVec.toNat hnew) hpc

/-! ## The execute phase and the step -/

theorem toNat_zext16_lt (nnn : Addr) : (zext16 nnn).toNat < 4096 := by
  rw [toNat_zext16]
  exact nnn.isLt

theorem State.toNat_pc0 {s : State} (h : 2 ≤ s.pc.toNat) : s.pc0.toNat = s.pc.toNat - 2 := by
  have hle : 2#16 ≤ s.pc := BitVec.le_def.mpr h
  exact BitVec.toNat_sub_of_le hle

/-- The execute phase keeps the invariants from a program counter that a fetch can leave: `Fx0A` goes back by 2, `CALL`
stores it, and a skip adds 2. -/
theorem Inv.exec {i : Instr} {s t : State} (hs : Inv s) (hlo : 2 ≤ s.pc.toNat) (hhi : s.pc.toNat ≤ 0x1000)
    (h : exec i s = .next t) : Inv t := by
  cases i with
  | cls | drw | ldImm | addImm | ldReg | orReg | andReg | xorReg | addReg | subReg | shrReg | subnReg | shlReg | rnd
  | ldVxDT | ldDTVx | ldSTVx =>
    cases h
    exact hs
  | seImm | sneImm | seReg | sneReg | skp | sknp =>
    cases h
    exact hs.skipIf _ hhi
  | jp nnn =>
    cases h
    exact hs.jump (by have := toNat_zext16_lt nnn; omega)
  | jpV0 nnn =>
    cases h
    have hn : nnn.toNat < 4096 := nnn.isLt
    have hv : (s.reg 0).toNat < 256 := (s.reg 0).isLt
    exact hs.jump (by rw [toNat_jumpOffset]; omega)
  | ldI nnn =>
    cases h
    exact hs.setI (toNat_zext16_lt nnn)
  | addIVx x =>
    cases h
    exact hs.setI (by rw [toNat_indexPlus]; exact Nat.mod_lt _ (by decide))
  | ldFVx x =>
    cases h
    have hv : (s.reg x).toNat < 256 := (s.reg x).isLt
    exact hs.setI (by rw [toNat_glyphAddress]; omega)
  | ldBVx x =>
    cases h
    exact ((hs.storeByte _ _).storeByte _ _).storeByte _ _
  | storeRegs x =>
    obtain ⟨m, hm, hwf⟩ := s.storeRegisters_spec (x.val + 1)
    cases (exec_storeRegs x s).symm.trans h
    rw [hm]
    exact hs.with_mem hwf
  | loadRegs x =>
    obtain ⟨v, hv⟩ := s.loadRegisters_spec (x.val + 1)
    cases h
    rw [hv]
    exact hs
  | ret =>
    rcases execRet_cases s with ⟨hpos, he⟩ | ⟨_, he⟩ <;> cases he.symm.trans h
    · exact hs.pop hpos
    · exact hs
  | call nnn =>
    rcases execCall_cases nnn s with ⟨hlt, he⟩ | ⟨_, he⟩ <;> cases he.symm.trans h
    · exact hs.push hlt hhi (by have := toNat_zext16_lt nnn; omega)
    · exact hs
  | ldVxK x =>
    rcases execLdVxK_cases x s with ⟨_, _, he⟩ | ⟨_, he⟩ <;> cases he.symm.trans h
    · exact hs
    · exact hs.jump (by rw [State.toNat_pc0 hlo]; omega)

theorem Inv.fetched {s : State} (h : Inv s) (hpc : s.pc.toNat + 1 < 4096) : Inv s.fetched :=
  h.jump (by rw [toNat_add_two (by omega)]; omega)

theorem Inv.finish {s : State} (h : Inv s) (d : Display) : Inv (s.finish d) := by
  cases hrun : s.halted with
  | true => rwa [State.finish_of_halted d hrun]
  | false => rw [State.finish_of_running d hrun]; exact h

/-- Settles O54: a fetch leaves the program counter between 2 and 0x1000, where `Inv.exec` applies; the other phases
write no element the invariants bound. -/
theorem everyStepKeepsTheInvariant : Obligations.EveryStepKeepsTheInvariant := by
  unfold Obligations.EveryStepKeepsTheInvariant
  intro s t h hs
  cases hrun : s.halted with
  | true =>
    cases (step_of_halted hrun).symm.trans hs
    exact h
  | false =>
    rcases step_running_cases hrun with ⟨_, he⟩ | ⟨hpc, _, he⟩ | ⟨i, u, hf, hu, he⟩ <;> cases he.symm.trans hs
    · exact h
    · split
      · exact h.fetched hpc
      · exact h.fetched hpc
    · have hpc := toNat_pc_fetched hf
      have hlt := hf.pc_lt
      exact ((h.fetched hlt).exec (by omega) (by omega) hu).finish s.px

/-! ## The moves of the host -/

/-- Settles O55: memory lists nothing, and no stack entry is in use. -/
theorem invariantHoldsAtReset : Obligations.InvariantHoldsAtReset := by
  unfold Obligations.InvariantHoldsAtReset
  exact ⟨reset_mem_wf, by decide, by decide, fun _ hk => absurd hk (Nat.not_lt_zero _)⟩

theorem inv_hostReset (s : State) : Inv (hostReset s) := by
  obtain ⟨m, hm, hwf⟩ := hostReset_spec s
  have hreset : Inv State.reset := invariantHoldsAtReset
  rw [hm]
  exact hreset.with_mem fun _ => hwf

theorem Inv.hostLoad {image : List Byte} {s t : State} (h : Inv s) (hload : hostLoad image s = .ok t) : Inv t := by
  rcases hostLoad_cases image s with ⟨_, he⟩ | ⟨_, m, he, hwf⟩ <;> cases he.symm.trans hload
  exact h.with_mem hwf

theorem Inv.hostSetKeys {s : State} (h : Inv s) (keys : Vector Bool 16) : Inv (hostSetKeys keys s) := h

/-- Settles O56: reset and load write bounded elements through memory alone, and the keypad is not bounded. -/
theorem hostMovesKeepTheInvariant : Obligations.HostMovesKeepTheInvariant := by
  unfold Obligations.HostMovesKeepTheInvariant
  exact ⟨inv_hostReset, fun _ _ _ h hload => h.hostLoad hload, fun keys _ h => h.hostSetKeys keys⟩

end Sys2Proof.Machine
end

section
/-! The host's runs and its boot order (spec/70_reset_and_hazards.md R181 to R184): what every move keeps, every run
keeps; and what the first step after a reset or a load fetches. -/

namespace Sys2Proof.Machine

/-! ## Runs -/

/-- What every move of a list keeps, a run of the list keeps. -/
theorem Session.run_induction {P : Session → Prop} {ms : List HostMove}
    (hmove : ∀ m ∈ ms, ∀ w v e, P w → w.move m = .next (v, e) → P v) {w z : Session} (hw : P w)
    (hrun : Session.run ms w = .next z) : P z := by
  induction ms generalizing w with
  | nil => cases hrun; exact hw
  | cons m ms ih =>
    obtain ⟨v, e, hm, hrest⟩ := Session.run_cons.mp hrun
    have hv : P v := hmove m List.mem_cons_self w v e hw hm
    exact ih (fun m' hm' => hmove m' (List.mem_cons_of_mem m hm')) hv hrest

theorem hostReset_cfg (s : State) : (hostReset s).cfg = s.cfg := rfl

theorem hostLoad_cfg {image : List Byte} {s t : State} (h : hostLoad image s = .ok t) : t.cfg = s.cfg := by
  rcases hostLoad_cases image s with ⟨_, he⟩ | ⟨_, _, he, _⟩ <;> cases he.symm.trans h
  rfl

/-- What O60 says of a session: the configuration it was created with, and the invariants once it has a state. -/
def Session.Sound (cfg : Config) : Session → Prop
  | .created c => c = cfg
  | .up _ s => Inv s ∧ s.cfg = cfg

theorem Session.Sound.move {cfg : Config} {w v : Session} {m : HostMove} {e : Option LoadError} (hw : w.Sound cfg)
    (hm : w.move m = .next (v, e)) : v.Sound cfg := by
  cases w with
  | created c =>
    by_cases hreset : m = .reset
    · subst hreset
      cases hm
      exact ⟨inv_hostReset _, hw⟩
    · rw [Session.move_created_of_ne hreset] at hm
      cases hm
  | up p s =>
    obtain ⟨hinv, hcfg⟩ := hw
    rcases Session.move_cases hm with ⟨_, rfl, _⟩ | ⟨image, _, _, hload⟩ | ⟨_, _, t, hstep, rfl⟩ | ⟨keys, _, rfl, _⟩
    · exact ⟨inv_hostReset s, hcfg⟩
    · rcases hload with ⟨t, ht, rfl, _⟩ | ⟨_, _, rfl, _⟩
      · exact ⟨hinv.hostLoad ht, (hostLoad_cfg ht).trans hcfg⟩
      · exact ⟨hinv, hcfg⟩
    · exact ⟨everyStepKeepsTheInvariant s t hinv hstep, (stepNeverWritesKeypadOrConfiguration s t hstep).right.trans hcfg⟩
    · exact ⟨hinv.hostSetKeys keys, hcfg⟩

/-- Settles O60: each move keeps `Session.Sound`, which holds at creation. -/
theorem everyHostRunKeepsInvariantAndConfiguration : Obligations.EveryHostRunKeepsInvariantAndConfiguration := by
  unfold Obligations.EveryHostRunKeepsInvariantAndConfiguration
  refine ⟨fun cfg ms p s hrun => ?_, hostReset_cfg⟩
  have hcreated : (Session.created cfg).Sound cfg := rfl
  exact Session.run_induction (P := Session.Sound cfg) (fun _ _ _ _ _ hw hm => hw.move hm) hcreated hrun

/-! ## Boot order -/

/-- The session has no load move until the next reset (R183). -/
def Session.PastLoad (w : Session) : Prop := ∃ p s, p ≠ .fresh ∧ w = .up p s

theorem Session.PastLoad.move {w v : Session} {m : HostMove} {e : Option LoadError} (hw : w.PastLoad)
    (hreset : m ≠ .reset) (hm : w.move m = .next (v, e)) : v.PastLoad := by
  obtain ⟨p, s, hp, rfl⟩ := hw
  rcases Session.move_cases hm with ⟨h, _, _⟩ | ⟨_, _, hfresh, _⟩ | ⟨_, _, t, _, rfl⟩ | ⟨keys, _, rfl, _⟩
  · exact absurd h hreset
  · exact absurd hfresh hp
  · exact ⟨.stepped, t, by decide, rfl⟩
  · exact ⟨p, hostSetKeys keys s, hp, rfl⟩

/-- A step, and a load that answers ok, end the phase in which the host has the load move. -/
theorem Session.pastLoad_of_move {w v : Session} {m : HostMove} (h : m = .step ∨ ∃ first, m = .load first)
    (hm : w.move m = .next (v, none)) : v.PastLoad := by
  cases w with
  | created cfg =>
    have hreset : m ≠ .reset := by rcases h with rfl | ⟨_, rfl⟩ <;> exact HostMove.noConfusion
    rw [Session.move_created_of_ne hreset] at hm
    cases hm
  | up p s =>
    rcases Session.move_cases hm with ⟨rfl, _, _⟩ | ⟨_, _, _, hload⟩ | ⟨_, _, t, _, rfl⟩ | ⟨_, rfl, _, _⟩
    · simp at h
    · rcases hload with ⟨t, _, rfl, _⟩ | ⟨_, _, _, herr⟩
      · exact ⟨.loaded, t, by decide, rfl⟩
      · cases herr
    · exact ⟨.stepped, t, by decide, rfl⟩
    · simp at h

/-- Settles O58: a core never reset has only the reset move; past the load, every other move but a reset stays there. -/
theorem hostMovesFollowTheBootOrder : Obligations.HostMovesFollowTheBootOrder := by
  unfold Obligations.HostMovesFollowTheBootOrder
  constructor
  · intro cfg m ms hreset
    rw [Session.run, Session.move_created_of_ne hreset]
  · intro w v z m ms image hkind hm hnoReset hrun
    have hv : v.PastLoad := Session.pastLoad_of_move hkind hm
    have hmoves : ∀ m ∈ ms, m ≠ .reset := fun m hmem h => hnoReset (h ▸ hmem)
    obtain ⟨p, s, hp, rfl⟩ : z.PastLoad :=
      Session.run_induction (fun m hmem _ _ _ hw hmove => hw.move (hmoves m hmem) hmove) hv hrun
    exact Session.move_load_of_ne image s hp

/-! ## The first step -/

theorem firstReset_fields (cfg : Config) :
    (firstReset cfg).pc = 0x0200#16 ∧ (firstReset cfg).fault = ⟨none, 0x0000#16, 0x0000#16⟩ ∧
      (firstReset cfg).cfg = cfg := by
  obtain ⟨m, hm, _⟩ := hostReset_spec { State.reset with cfg := cfg }
  rw [firstReset, hm]
  exact ⟨rfl, rfl, rfl⟩

theorem run_reset_load {cfg : Config} {image : List Byte} {s : State} (h : hostLoad image (firstReset cfg) = .ok s) :
    Session.run [.reset, .load image] (.created cfg) = .next (.up .loaded s) :=
  Session.run_cons.mpr ⟨_, _, Session.move_created_reset cfg, Session.run_cons.mpr ⟨_, _, Session.move_load_ok h, rfl⟩⟩

theorem run_reset_load_step {cfg : Config} {image : List Byte} {s t : State}
    (h : hostLoad image (firstReset cfg) = .ok s) (hstep : Machine.step s = .next t) :
    Session.run [.reset, .load image, .step] (.created cfg) = .next (.up .stepped t) :=
  Session.run_cons.mpr ⟨_, _, Session.move_created_reset cfg,
    Session.run_cons.mpr ⟨_, _, Session.move_load_ok h, Session.run_cons.mpr ⟨_, _, Session.move_step _ hstep, rfl⟩⟩⟩

theorem run_reset_step {cfg : Config} {t : State} (hstep : Machine.step (firstReset cfg) = .next t) :
    Session.run [.reset, .step] (.created cfg) = .next (.up .stepped t) :=
  Session.run_cons.mpr ⟨_, _, Session.move_created_reset cfg, Session.run_cons.mpr ⟨_, _, Session.move_step _ hstep, rfl⟩⟩

/-- A step at the start of program memory fetches its first two bytes (R91). -/
theorem step_at_program_start {s : State} (hpc : s.pc = 0x0200#16) (hrun : s.halted = false) :
    ∃ t, step s = .next t ∧ t.currentOpcode = wordOfBytes (s.byteAt 0x200) (s.byteAt 0x201) := by
  have hin : s.fetchOutOfBounds = false := State.fetchOutOfBounds_of_lt (by rw [hpc]; decide)
  obtain ⟨t, hstep, hop⟩ := step_currentOpcode_of_inBounds hrun hin
  refine ⟨t, hstep, ?_⟩
  rw [hop, State.fetchWord, hpc]
  rfl

/-- Program memory is zero after a reset, so the word at its start is 0x0000. -/
theorem fetchWord_firstReset (cfg : Config) : (firstReset cfg).fetchWord = 0x0000#16 := by
  obtain ⟨hpc, _, _⟩ := firstReset_fields cfg
  have hhi : (firstReset cfg).byteAt 0x200 = 0x00#8 := byteAt_hostReset_outside_font _ (by decide) (by decide)
  have hlo : (firstReset cfg).byteAt 0x201 = 0x00#8 := byteAt_hostReset_outside_font _ (by decide) (by decide)
  have hword : (firstReset cfg).fetchWord =
      wordOfBytes ((firstReset cfg).byteAt 0x200) ((firstReset cfg).byteAt 0x201) := by
    rw [State.fetchWord, hpc]
    rfl
  rw [hword, hhi, hlo]
  rfl

/-- A step after the reset alone meets the unknown word 0x0000 (R77). -/
theorem step_firstReset (cfg : Config) :
    ∃ t, step (firstReset cfg) = .next t ∧ t.currentOpcode = 0x0000#16 ∧
      t.fault = (if cfg.strictDecode then ⟨some .unknownOpcode, 0x0000#16, 0x0200#16⟩
        else ⟨none, 0x0000#16, 0x0000#16⟩) := by
  obtain ⟨hpc, hfault, hcfg⟩ := firstReset_fields cfg
  have hword := fetchWord_firstReset cfg
  have hrun : (firstReset cfg).halted = false := by rw [State.halted, hfault]; rfl
  have hin : (firstReset cfg).fetchOutOfBounds = false := State.fetchOutOfBounds_of_lt (by rw [hpc]; decide)
  have hd : decodeWord (firstReset cfg).fetchWord = .error (.unknown 0x0000#16) := by rw [hword]; rfl
  refine ⟨_, step_of_unknown hrun hin hd, ?_⟩
  rw [hcfg]
  cases cfg.strictDecode with
  | true =>
    exact ⟨hword, by
      rw [if_pos rfl, State.raiseHere_fault, State.pc0_fetched, State.fetched_currentOpcode, hword, hpc]; rfl⟩
  | false => exact ⟨hword, hfault⟩

/-- Settles O59: the load is that of O53 on the state of the first reset; program memory starts at pc. -/
theorem bootSequenceStartsTheProgram : Obligations.BootSequenceStartsTheProgram := by
  unfold Obligations.BootSequenceStartsTheProgram
  intro cfg image
  obtain ⟨hlong, hfits⟩ := loadCopiesTheImageOrNothing image (firstReset cfg)
  refine ⟨fun hlen => ?_, fun hlen => ?_, ?_⟩
  · obtain ⟨s, hload, himage, hrest, hframe⟩ := hfits hlen
    obtain ⟨hpc, hfault, _⟩ := firstReset_fields cfg
    have hs : s.pc = 0x0200#16 := (hframe .programCounter (by decide)).trans hpc
    have hrun : s.halted = false := by
      rw [State.halted, show s.fault = _ from (hframe .faultRecord (by decide)).trans hfault]
      rfl
    obtain ⟨t, hstep, hop⟩ := step_at_program_start hs hrun
    refine ⟨s, t, run_reset_load hload, hframe, hs, hrun, himage, hrest, run_reset_load_step hload hstep, fun h => ?_⟩
    rw [hop, toNat_wordOfBytes, himage 0 (by omega), himage 1 (by omega)]
  · have hmove := Session.move_load_error (hlong hlen)
    exact ⟨Session.run_cons.mpr ⟨_, _, Session.move_created_reset cfg, Session.run_cons.mpr ⟨_, _, hmove, rfl⟩⟩, hmove⟩
  · obtain ⟨t, hstep, hop, hfault⟩ := step_firstReset cfg
    exact ⟨t, run_reset_step hstep, hop, hfault⟩

/-! ## The table of reset values -/

/-- Storing what unwritten memory reads as lists nothing. -/
theorem State.storeBytes_of_resetBytes {bs : List Byte} {s : State} {a : Nat} (hs : s.mem = [])
    (h : ∀ k (hk : k < bs.length), bs[k] = resetByte ((a + k) % 4096)) : s.storeBytes a bs = s := by
  induction bs generalizing a with
  | nil => rfl
  | cons b bs ih =>
    have hb : b = resetByte (a % 4096) := h 0 (by simp)
    have hstore : s.storeByte a b = s := by
      have hwrite : s.mem.write (a % 4096) b = s.mem := by rw [hs, Memory.write, if_pos hb]; rfl
      rw [State.storeByte, hwrite]
    rw [State.storeBytes, hstore]
    refine ih fun k hk => ?_
    have hnext := h (k + 1) (Nat.succ_lt_succ hk)
    rwa [Nat.add_right_comm, Nat.add_assoc]

theorem resetByte_font {k : Nat} (h : k < 80) : resetByte (0x050 + k) = defaultFont[k] := by
  have hin : 0x050 ≤ 0x050 + k ∧ 0x050 + k < 0x0A0 := by omega
  simp [resetByte, hin]

theorem State.byteAt_reset {a : Nat} (h : a < 4096) : State.reset.byteAt a = resetByte a :=
  congrArg resetByte (Nat.mod_eq_of_lt h)

/-- With the default font a reset stores what unwritten memory reads as. -/
theorem hostReset_of_default {s : State} (hcfg : s.cfg = Config.default) (hdraws : s.draws = 0) :
    hostReset s = State.reset := by
  have hfont : State.reset.storeBytes 0x050 defaultFont.toList = State.reset := by
    refine State.storeBytes_of_resetBytes rfl fun k hk => ?_
    have hk80 : k < 80 := by rwa [Vector.length_toList] at hk
    rw [Nat.mod_eq_of_lt (by omega), resetByte_font hk80, Vector.getElem_toList]
  have hmem : hostReset s =
      { State.reset.storeBytes 0x050 defaultFont.toList with cfg := Config.default, draws := 0 } := by
    rw [hostReset, hcfg, hdraws]
    rfl
  rw [hmem, hfont]
  rfl

/-- Settles O52: the fields are those `State.reset` writes out, and its memory, which lists nothing, reads as
`resetByte`. -/
theorem resetStateIsTheTable : Obligations.ResetStateIsTheTable := by
  unfold Obligations.ResetStateIsTheTable
  refine ⟨?_, ⟨fun k hk => ?_, by decide, fun a ha hout => State.byteAt_reset_outside_font ha hout⟩,
    fun s => hostReset_of_default⟩
  · exact ⟨fun r => Vector.getElem_replicate r.isLt, rfl, rfl, rfl, fun k => Vector.getElem_replicate k.isLt, rfl, rfl,
      fun k => Vector.getElem_replicate k.isLt, pixel_clearDisplay, rfl, rfl, rfl, rfl, rfl, rfl⟩
  · rw [State.byteAt_reset (by omega), resetByte_font hk]

end Sys2Proof.Machine
end

section
/-! The flag writers, the random byte, and the return from a call (spec/42_alu.md R116 to R123,
spec/41_control_flow.md R100, R102). -/

namespace Sys2Proof.Machine

/-! ## Call and return -/

/-- Settles O25: the return pops the entry the call pushed. -/
theorem returnAfterCallComesBack : Obligations.ReturnAfterCallComesBack := by
  unfold Obligations.ReturnAfterCallComesBack
  intro nnn s t u hlt hcall hsp hstack
  cases (execCall_of_lt nnn hlt).symm.trans hcall
  have hval : u.sp.val = s.sp.val + 1 := congrArg Fin.val hsp
  have hpos : 0 < u.sp.val := by omega
  refine ⟨_, execRet_of_pos hpos, ?_, Fin.ext ?_⟩
  · simp [State.stackAt, hstack, hval]
  · simp [hval]

/-! ## Flags -/

theorem toNat_flagByte (c : Bool) : (flagByte c).toNat = if c then 1 else 0 := by
  cases c <;> rfl

theorem toNat_flagByte_carryFlag (a b : Byte) :
    (flagByte (carryFlag a b)).toNat = if a.toNat + b.toNat > 255 then 1 else 0 := by
  simp [toNat_flagByte, carryFlag]

theorem toNat_flagByte_greaterFlag (a b : Byte) :
    (flagByte (greaterFlag a b)).toNat = if b.toNat < a.toNat then 1 else 0 := by
  rw [toNat_flagByte, greaterFlag]
  by_cases h : a.toNat ≤ b.toNat
  · simp [h, Nat.not_lt.mpr h]
  · simp [h, Nat.not_le.mp h]

/-- A bit of a byte as the flag that holds it. -/
theorem toNat_flagByte_getLsbD (v : Byte) (b : Nat) : (flagByte (v.getLsbD b)).toNat = v.toNat / 2 ^ b % 2 := by
  rw [toNat_flagByte, BitVec.getLsbD, Nat.testBit_eq_decide_div_mod_eq]
  have hbit := Nat.mod_two_eq_zero_or_one (v.toNat / 2 ^ b)
  rcases hbit with h | h <;> simp [h]

theorem toNat_flagByte_rightOutFlag (v : Byte) : (flagByte (rightOutFlag v)).toNat = v.toNat % 2 := by
  rw [rightOutFlag, toNat_flagByte_getLsbD, pow_zero, Nat.div_one]

theorem toNat_flagByte_leftOutFlag (v : Byte) : (flagByte (leftOutFlag v)).toNat = v.toNat / 128 := by
  have hv : v.toNat < 256 := v.isLt
  rw [leftOutFlag, toNat_flagByte_getLsbD]
  omega

/-- An instruction whose meaning is `flagThenResult` leaves the result in `V[x]`, the flag in `VF` unless that is
`V[x]`, and everything else as it was (R123). -/
theorem exec_flagThenResult_spec {i : Instr} {s : State} {x : Reg} {f : Bool} {v : Byte} {n m : Nat}
    (he : exec i s = .next (s.flagThenResult x f v)) (hv : v.toNat = n) (hf : (flagByte f).toNat = m) :
    ∃ t, exec i s = .next t ∧ (t.reg x).toNat = n ∧ (x ≠ 15 → (t.reg 15).toNat = m) ∧ KeepsRegsBut [x, 15] s t ∧
      OnlyChanges [.registers] s t := by
  refine ⟨_, he, ?_, fun hx => ?_, keepsRegsBut_flagThenResult s x f v, onlyChanges_flagThenResult s x f v⟩
  · rw [State.reg_flagThenResult, if_pos rfl, hv]
  · have hflag : (s.flagThenResult x f v).reg regF = flagByte f := by
      rw [State.reg_flagThenResult, if_neg (show regF ≠ x from hx.symm), if_pos rfl]
    exact (congrArg BitVec.toNat hflag).trans hf

/-- Settles O32: the carry is that of the sum of the old values, whichever register the destination is. -/
theorem addSetsCarry : Obligations.AddSetsCarry := by
  unfold Obligations.AddSetsCarry
  intro x y s
  exact exec_flagThenResult_spec rfl (BitVec.toNat_add _ _) (toNat_flagByte_carryFlag _ _)

theorem toNat_byte_sub (a b : Byte) : (a - b).toNat = (a.toNat + 256 - b.toNat) % 256 := by
  have hb : b.toNat < 256 := b.isLt
  rw [BitVec.toNat_sub]
  omega

/-- Settles O33: both are `flagThenResult` on a difference and the strict comparison of its operands. -/
theorem subtractsSetGreaterFlag : Obligations.SubtractsSetGreaterFlag := by
  unfold Obligations.SubtractsSetGreaterFlag
  intro x y s
  exact ⟨exec_flagThenResult_spec rfl (toNat_byte_sub _ _) (toNat_flagByte_greaterFlag _ _),
    exec_flagThenResult_spec rfl (toNat_byte_sub _ _) (toNat_flagByte_greaterFlag _ _)⟩

theorem toNat_byte_shiftRight_one (v : Byte) : (v >>> 1).toNat = v.toNat / 2 := by
  rw [BitVec.toNat_ushiftRight, Nat.shiftRight_one]

theorem toNat_byte_shiftLeft_one (v : Byte) : (v <<< 1).toNat = v.toNat * 2 % 256 := by
  rw [BitVec.toNat_shiftLeft, Nat.shiftLeft_eq, pow_one]

/-- Settles O34: the statement's `v` is the operand `SHIFT_SOURCE` selects; the result is half or twice it. -/
theorem shiftsMoveOneBitIntoVF : Obligations.ShiftsMoveOneBitIntoVF := by
  unfold Obligations.ShiftsMoveOneBitIntoVF
  intro x y s v hv
  have hop : s.shiftOperand x y = v := hv.symm
  subst hop
  exact ⟨exec_flagThenResult_spec rfl (toNat_byte_shiftRight_one _) (toNat_flagByte_rightOutFlag _),
    exec_flagThenResult_spec rfl (toNat_byte_shiftLeft_one _) (toNat_flagByte_leftOutFlag _)⟩

/-! ## Random byte -/

/-- Settles O35: a bit that is 0 in the mask is 0 in the AND, so nothing of the draw is used. -/
theorem randomByteIsMasked : Obligations.RandomByteIsMasked := by
  unfold Obligations.RandomByteIsMasked
  intro x nn s
  have hx : (s.randomInto (Config.rand8 s.draws) x nn).reg x = Config.rand8 s.draws &&& nn := by
    rw [State.reg_randomInto, if_pos rfl]
  refine ⟨_, rfl, hx, fun b _ hb => ?_, rfl, keepsRegsBut_setReg s x _, onlyChanges_randomInto s _ x nn⟩
  rw [hx, BitVec.getLsbD_and, hb, Bool.and_false]

end Sys2Proof.Machine
end

section
/-! The instructions that store to memory and load from it (spec/43_index_memory.md R133 to R136), the timer writes
and the keypad instructions (spec/45_timer_keypad.md R151 to R156). -/

namespace Sys2Proof.Machine

/-! ## Decimal digits -/

/-- The bytes an instruction touches lie at different addresses (R136). -/
theorem State.ea_ne (s : State) {j k : Nat} (hj : j < 4096) (hk : k < 4096) (h : j ≠ k) : s.ea j ≠ s.ea k := by
  simp only [State.ea]
  omega

theorem State.ea_mod (s : State) (k : Nat) : s.ea k % 4096 = s.ea k := Nat.mod_eq_of_lt (s.ea_lt k)

theorem toNat_hundreds (v : Byte) : (hundreds v).toNat = v.toNat / 100 := by
  have hv : v.toNat < 256 := v.isLt
  rw [hundreds, BitVec.toNat_ofNat, Nat.mod_eq_of_lt (by omega)]

theorem toNat_tens (v : Byte) : (tens v).toNat = v.toNat / 10 % 10 := by
  rw [tens, BitVec.toNat_ofNat, Nat.mod_eq_of_lt (by omega)]

theorem toNat_ones (v : Byte) : (ones v).toNat = v.toNat % 10 := by
  rw [ones, BitVec.toNat_ofNat, Nat.mod_eq_of_lt (by omega)]

/-- Settles O38: the three addresses are distinct, so no store hides another. -/
theorem bcdStoresThreeDigits : Obligations.BcdStoresThreeDigits := by
  unfold Obligations.BcdStoresThreeDigits
  intro x s
  have h01 : s.ea 0 ≠ s.ea 1 := s.ea_ne (by decide) (by decide) (by decide)
  have h02 : s.ea 0 ≠ s.ea 2 := s.ea_ne (by decide) (by decide) (by decide)
  have h12 : s.ea 1 ≠ s.ea 2 := s.ea_ne (by decide) (by decide) (by decide)
  refine ⟨_, exec_ldBVx x s, ?_, ?_, ?_, fun a ha => byteAt_of_exec_ldBVx (exec_ldBVx x s) ha, onlyChanges_mem s _⟩
  · simp only [State.byteAt_storeByte_ea, State.ea_mod, if_neg h02, if_neg h01, if_true, toNat_hundreds]
  · simp only [State.byteAt_storeByte_ea, State.ea_mod, if_neg h12, if_true, toNat_tens]
  · simp only [State.byteAt_storeByte_ea, State.ea_mod, if_true, toNat_ones]

/-! ## Register blocks -/

/-- The byte `Fx55` leaves at `EA(k)`, for every register it stores. -/
theorem byteAt_storeRegisters_of_le (s : State) {x k : Reg} (h : k ≤ x) :
    (s.storeRegisters (x.val + 1)).byteAt (s.ea k.val) = s.reg k := by
  rw [State.byteAt_storeRegisters s (x.val + 1) k.val (by omega) (Nat.lt_succ_of_le h), regNumber_self]

/-- The register `Fx65` loads from `EA(k)`. -/
theorem reg_loadRegisters_of_le (s : State) {x k : Reg} (h : k ≤ x) :
    (s.loadRegisters (x.val + 1)).reg k = s.byteAt (s.ea k.val) := by
  rw [State.reg_loadRegisters s _ (by omega), if_pos (Nat.lt_succ_of_le h)]

/-- Settles O39: the loop's bytes, the bytes beside them and its frame. -/
theorem storeWritesRegistersFromI : Obligations.StoreWritesRegistersFromI := by
  unfold Obligations.StoreWritesRegistersFromI
  intro x s
  exact ⟨_, exec_storeRegs x s, fun _ hk => byteAt_storeRegisters_of_le s hk,
    fun _ ha => byteAt_of_exec_storeRegs (exec_storeRegs x s) ha, onlyChanges_storeRegisters s _⟩

/-- Settles O40: the loop's registers, the registers above them and its frame. -/
theorem loadReadsRegistersFromI : Obligations.LoadReadsRegistersFromI := by
  unfold Obligations.LoadReadsRegistersFromI
  intro x s
  exact ⟨_, rfl, fun _ hk => reg_loadRegisters_of_le s hk, fun _ hk => reg_loadRegisters_of_gt s hk,
    onlyChanges_loadRegisters s _⟩

/-- Settles O41: `EA(k)` is the same in both states, and the byte there is the register stored. -/
theorem loadAfterStoreRestoresRegisters : Obligations.LoadAfterStoreRestoresRegisters := by
  unfold Obligations.LoadAfterStoreRestoresRegisters
  intro x s t u hstore hmem hI
  cases (exec_storeRegs x s).symm.trans hstore
  refine ⟨_, rfl, fun k hk => ?_⟩
  rw [reg_loadRegisters_of_le u hk, State.ea_congr hI, State.byteAt_congr hmem, byteAt_storeRegisters_of_le s hk]

/-! ## Timers -/

/-- Settles O46: the execute phase writes one timer, which the tick at the end of the step then lowers. -/
theorem setTimers : Obligations.SetTimers := by
  unfold Obligations.SetTimers
  intro x s
  refine ⟨⟨_, rfl, rfl, onlyChanges_DT s _⟩, ⟨_, rfl, rfl, onlyChanges_ST s _⟩, fun hf => ?_, fun hf => ?_⟩
  · exact ⟨_, step_of_fetches (u := { s.fetched with DT := s.reg x }) hf rfl hf.running, toNat_tickByte _⟩
  · exact ⟨_, step_of_fetches (u := { s.fetched with ST := s.reg x }) hf rfl hf.running, toNat_tickByte _⟩

/-! ## Keypad -/

/-- Settles O47: the key tested is the statement's, and both are `skipIf` on it. -/
theorem keySkipsTestTheKeypad : Obligations.KeySkipsTestTheKeypad := by
  unfold Obligations.KeySkipsTestTheKeypad
  intro x k s hk
  have hkey : keyOfByte (s.reg x) = k := Fin.ext hk.symm
  refine ⟨exec_skipIf_spec rfl (by rw [hkey]), exec_skipIf_spec rfl (by rw [hkey, Bool.not_eq_true'])⟩

/-- The lowest pressed key is the one found (R155). -/
theorem State.lowestKey_eq_some {s : State} {k : Key} (hk : s.keyDown k = true) (hlow : ∀ j < k, s.keyDown j = false) :
    s.lowestKey = some k := by
  cases h : s.lowestKey with
  | none => exact absurd (hk.symm.trans (State.lowestKey_none.mp h k)) Bool.noConfusion
  | some j =>
    obtain ⟨hj, hjlow⟩ := State.lowestKey_some h
    rcases lt_trichotomy j k with hlt | rfl | hgt
    · exact absurd (hj.symm.trans (hlow j hlt)) Bool.noConfusion
    · rfl
    · exact absurd (hk.symm.trans (hjlow k hgt)) Bool.noConfusion

theorem toNat_byteOfKey (k : Key) : (byteOfKey k).toNat = k.val := by
  have hk : k.val < 16 := k.isLt
  rw [byteOfKey, BitVec.toNat_ofNat, Nat.mod_eq_of_lt (by omega)]

/-- A step that fetches `Fx0A` with no key pressed completes from the state fetched with its pc set back (R155). -/
theorem step_ldVxK_waiting {x : Reg} {s : State} (hnone : s.lowestKey = none) (hf : Fetches s (.ldVxK x)) :
    step s = .next ((s.fetched.jump s.pc).complete s.px) := by
  have he : exec (.ldVxK x) s.fetched = .next (s.fetched.jump s.fetched.pc0) :=
    execLdVxK_of_none (s := s.fetched) x hnone
  rw [State.pc0_fetched] at he
  exact step_of_fetches hf he hf.running

/-- The waiting step ends with the pc it began with, so only the word, the draw flag and the timers differ. -/
theorem onlyChanges_waiting (s : State) (d : Display) :
    OnlyChanges [.currentOpcode, .drawFlag, .delayTimer, .soundTimer] s ((s.fetched.jump s.pc).complete d) := by
  intro e he
  by_cases hpc : e = .programCounter
  · subst hpc
    rfl
  · refine (((onlyChanges_fetched s).trans (onlyChanges_jump _ s.pc)).trans (onlyChanges_complete _ d)) e ?_
    simp only [List.mem_cons, List.not_mem_nil, or_false, not_or] at he
    simp [hpc, he]

/-- Settles O48: the keypad decides between the write of the lowest key and the jump back to the instruction itself. -/
theorem waitForKeyTakesTheLowestOrRepeats : Obligations.WaitForKeyTakesTheLowestOrRepeats := by
  unfold Obligations.WaitForKeyTakesTheLowestOrRepeats
  intro x s
  refine ⟨fun k hk hlow => ?_, fun hnone => ?_⟩
  · have he := execLdVxK_of_some x (State.lowestKey_eq_some hk hlow)
    exact ⟨_, he, by rw [State.reg_setReg_self, toNat_byteOfKey], keepsRegsBut_setReg s x _, onlyChanges_setReg s x _⟩
  · have hlowest := State.lowestKey_none.mpr hnone
    refine ⟨⟨_, execLdVxK_of_none x hlowest, rfl, onlyChanges_jump s _⟩, fun hf => ?_⟩
    exact ⟨_, step_ldVxK_waiting hlowest hf, rfl, hf.running, toNat_tickByte s.DT, toNat_tickByte s.ST,
      onlyChanges_waiting s _⟩

end Sys2Proof.Machine
end

section
/-! The display instructions (spec/44_display.md R140 to R142): clearing, drawing, and drawing twice. -/

namespace Sys2Proof.Machine

/-- What `00E0` means (R140). -/
theorem exec_cls (s : State) : exec .cls s = .next { s with px := clearDisplay } := rfl

/-- The cleared display differs exactly where a pixel was lit. -/
theorem clearDisplay_ne_iff (d : Display) : clearDisplay ≠ d ↔ ∃ r c, pixel d r c = true := by
  simp [display_ne_iff]

/-- Settles O42: the draw flag of the step compares the cleared display with the one before. -/
theorem clearUnlightsEveryPixel : Obligations.ClearUnlightsEveryPixel := by
  unfold Obligations.ClearUnlightsEveryPixel
  refine ⟨fun s => ⟨_, exec_cls s, pixel_clearDisplay, onlyChanges_px s _⟩, fun s hf => ?_⟩
  refine ⟨_, step_of_fetches hf (exec_cls s.fetched) hf.running, ?_⟩
  rw [State.complete_drawFlag, decide_eq_true_iff]
  exact clearDisplay_ne_iff s.px

/-- What `Dxyn` means (R141). -/
theorem exec_drw (x y : Reg) (n : Nibble) (s : State) :
    exec (.drw x y n) s =
      .next ({ s with px := (s.drawn x y n.toNat).px }.setReg regF (flagByte (s.drawn x y n.toNat).hit)) := rfl

/-- Settles O43: the pixels and the collision are those of the drawing loops (Laws/Draw). -/
theorem drawXorsSpriteAndReportsCollision : Obligations.DrawXorsSpriteAndReportsCollision := by
  unfold Obligations.DrawXorsSpriteAndReportsCollision
  intro x y n s
  have hhit := hit_drawn s x y n
  refine ⟨_, exec_drw x y n s, pixel_drawn s x y n, fun hlit => ?_, fun hlit => ?_, ?_, onlyChanges_px_setReg s _ _ _⟩
  · exact (State.reg_setReg_self _ _ _).trans (congrArg flagByte (hhit.mpr hlit))
  · exact (State.reg_setReg_self _ _ _).trans (congrArg flagByte (Bool.eq_false_iff.mpr (mt hhit.mp hlit)))
  · exact fun r hr => State.reg_setReg_of_ne _ _ (List.ne_of_not_mem_cons hr)

/-- The sprite's 1 bits depend on the two coordinates, `I` and memory. -/
theorem drwCovers_congr {s t : State} {x y : Reg} (n : Nibble) (hx : t.reg x = s.reg x) (hy : t.reg y = s.reg y)
    (hI : t.I = s.I) (hmem : ∀ a, t.byteAt a = s.byteAt a) : drwCovers t x y n = drwCovers s x y n := by
  simp only [drwCovers, hx, hy, hI, hmem]

/-- Settles O44: the second draw covers the same pixels, so it flips each back, and meets lit exactly those the first
one lit. -/
theorem drawingTwiceRestoresTheDisplay : Obligations.DrawingTwiceRestoresTheDisplay := by
  unfold Obligations.DrawingTwiceRestoresTheDisplay
  intro x y n s t hs hx hy
  obtain ⟨t', ht', hfirst, _, _, _, hframe⟩ := drawXorsSpriteAndReportsCollision x y n s
  obtain rfl := Host.Outcome.next.inj (ht'.symm.trans hs)
  obtain ⟨u, hu, hsecond, hhit, hmiss, _, _⟩ := drawXorsSpriteAndReportsCollision x y n t'
  have hcovers : drwCovers t' x y n = drwCovers s x y n :=
    drwCovers_congr n hx hy (hframe .index (by decide)) (hframe .memory (by decide))
  have hlit : (∃ r c, drwCovers t' x y n r c = true ∧ pixel t'.px r c = true) ↔
      ∃ r c, drwCovers s x y n r c = true ∧ pixel s.px r c = false := by
    refine exists_congr fun r => exists_congr fun c => ?_
    rw [hcovers, hfirst]
    refine and_congr_right fun hc => ?_
    rw [hc, Bool.xor_true, Bool.not_eq_true']
  rw [hlit] at hhit hmiss
  refine ⟨u, hu, display_ext fun r c => ?_, hhit, hmiss⟩
  rw [hsecond, hfirst, hcovers, Bool.xor_assoc, Bool.xor_self, Bool.xor_false]

end Sys2Proof.Machine
end
